-- ==== Sys2Proof/Config.lean ====
section
/-! DEFINITION. What an implementation fixes (00_scope.md R6). A parameter the spec leaves OPEN is a constant
without a body: no proof can see its value. -/

namespace Sys2Proof

/-- 44_encode.md R198: the two settings of ENC_FAIL_WRITE. -/
inductive EncFailWrite where
  | none
  | marker
deriving DecidableEq, Repr, Inhabited

/-- ENC_FAIL_WRITE, OPEN (00_scope.md R6, decision D15): a model admits both settings. (log 11) -/
opaque Config.encFailWrite : EncFailWrite

/-- By how much LIMIT_W exceeds the least width the spec allows. OPEN (00_scope.md R6). (log 9) -/
opaque Config.limitExtra : Nat

/-- LIMIT_W: "OPEN, any width of 4 bits or more" (00_scope.md R6). -/
def Config.limitWidth : Nat := 4 + Config.limitExtra

/-- MAX_LEN, the longest encoding (00_scope.md R6, 41_length.md R134). -/
def Config.maxLen : Nat := 10

end Sys2Proof
end

