-- ==== Sys2Proof/Word.lean ====
section
/-! DEFINITION. Bytes, words, tags, statuses, windows, command records and wire items: the plain data every
other file speaks of (00_scope.md R7 to R10, 10_state.md R27, 30_encoding.md R71, R90, R93). -/

namespace Sys2Proof

/-- One element of the buffer (00_scope.md R6, BYTE_W). -/
abbrev Byte := BitVec 8

/-- A value or a magnitude (00_scope.md R6, VALUE_W; R8). -/
abbrev Word := BitVec 64

/-- 00_scope.md R8: the word read as a two's complement signed integer. -/
def s64 (w : Word) : Int := w.toInt

/-- 00_scope.md R8: the word read as an unsigned integer. -/
def u64 (w : Word) : Nat := w.toNat

/-- 00_scope.md R9: the eight tag classes and the verdict INVALID. -/
inductive Tag where
  | pos7
  | pos14
  | pos21
  | pos28
  | pos32
  | pos64
  | neg2
  | negR
  | invalid
deriving DecidableEq, Repr

/-- 30_encoding.md R93: the outcome of a command. -/
inductive Status where
  | ok
  | invalid
  | insufficientSpace
deriving DecidableEq, Repr

/-- 00_scope.md R10: a buffer operand. Byte `i` of the window is the host's byte at `base + i`, and the
block may touch the first `limit` bytes. -/
structure Window where
  base  : Nat
  limit : Nat
deriving DecidableEq, Repr

/-- 10_state.md R27, 30_encoding.md R90: the operand ports of a command, a record and not a packed word.
Each port has the bits the rule gives it, `lim` the LIMIT_W of this machine (log 9); `win` is the host address of byte 0
of the window. -/
structure Command where
  op  : BitVec 3
  val : Word
  lim : BitVec Config.limitWidth
  win : Nat
deriving DecidableEq, Repr

/-- A varint of a fixed-width tag as it stands on the wire (30_encoding.md R72 to R78): the payload bits `m`
and, for the two marker formats, the two bits `x` that are ignored on reading (R83). -/
inductive FixedVarint where
  | pos7  (m : BitVec 7)
  | pos14 (m : BitVec 14)
  | pos21 (m : BitVec 21)
  | pos28 (m : BitVec 28)
  | pos32 (x : BitVec 2) (m : BitVec 32)
  | pos64 (x : BitVec 2) (m : BitVec 64)
  | neg2  (m : BitVec 2)
deriving DecidableEq, Repr

end Sys2Proof
end

