-- ==== Sys2Proof/Syntax.lean ====
section
/-! DEFINITION. The instructions: one constructor per row of spec/opcode_table.json, six commands
(30_encoding.md R91) and eight wire formats (30_encoding.md R71). -/

namespace Sys2Proof

/-- The first six are commands with the operands they use (30_encoding.md R91); an operand a command ignores is
no field. The other eight are varints as they stand on the wire (30_encoding.md R72 to R79): payload bits `m`,
ignored bits `x`, and for NEG_R the nested varint, whose tag is not NEG_R. -/
inductive Instr where
  | classv (val : Word)
  | classb (b : Byte)
  | len    (val : Word)
  | ident  (W : Window)
  | dec    (W : Window)
  | enc    (W : Window) (val : Word)
  | pos7   (m : BitVec 7)
  | pos14  (m : BitVec 14)
  | pos21  (m : BitVec 21)
  | pos28  (m : BitVec 28)
  | pos32  (x : BitVec 2) (m : BitVec 32)
  | pos64  (x : BitVec 2) (m : BitVec 64)
  | negR   (x : BitVec 2) (n : FixedVarint)
  | neg2   (m : BitVec 2)
deriving DecidableEq, Repr

/-- A fixed-width varint as an instruction of its own. -/
def Instr.ofFixed : FixedVarint → Instr
  | .pos7 m    => .pos7 m
  | .pos14 m   => .pos14 m
  | .pos21 m   => .pos21 m
  | .pos28 m   => .pos28 m
  | .pos32 x m => .pos32 x m
  | .pos64 x m => .pos64 x m
  | .neg2 m    => .neg2 m

end Sys2Proof
end

