-- ==== Sys2Proof/Decode.lean ====
section
/-! DEFINITION. The two encodings of the hardware (30_encoding.md): command records on the ports and varints on
the wire. The decoder is total on any record and any bytes and rejects by name; the encoder after it is
written from the same tables. -/

namespace Sys2Proof

/-- Why a record or a byte sequence is no instruction. -/
inductive DecodeError where
  /-- `op` 6 or 7 (30_encoding.md R94). -/
  | reservedOp
  /-- No byte at all (42_identify.md R141). -/
  | emptyWindow
  /-- A leading byte of no class; no byte is one (30_encoding.md R80). -/
  | noClass
  /-- A NEG_R marker with no byte after it (42_identify.md R144). -/
  | markerLast
  /-- Two NEG_R markers in a row (42_identify.md R145). -/
  | secondMarker
  /-- Fewer bytes than the format has (43_decode.md R162). -/
  | truncated
deriving DecidableEq, Repr

/-- 40_classify.md R111: the tag of a leading byte, tested in the source's fixed order. -/
def classB (b0 : Byte) : Tag :=
  if b0 &&& 0xFC#8 = 0xF8#8 then .negR
  else if b0 &&& 0xFC#8 = 0xFC#8 then .neg2
  else if b0 &&& 0x80#8 = 0x00#8 then .pos7
  else if b0 &&& 0xC0#8 = 0x80#8 then .pos14
  else if b0 &&& 0xE0#8 = 0xC0#8 then .pos21
  else if b0 &&& 0xF0#8 = 0xE0#8 then .pos28
  else if b0 &&& 0xFC#8 = 0xF0#8 then .pos32
  else if b0 &&& 0xFC#8 = 0xF4#8 then .pos64
  else .invalid

/-- 30_encoding.md R84: the total length of a varint of a fixed-width tag (0 in the INVALID row of R71; NEG_R has
none, and no rule asks for it). -/
def fixlen : Tag → Nat
  | .pos7    => 1
  | .pos14   => 2
  | .pos21   => 3
  | .pos28   => 4
  | .pos32   => 5
  | .pos64   => 9
  | .neg2    => 1
  | .negR    => 0
  | .invalid => 0

/-- The tag of a wire item. -/
def FixedVarint.tag : FixedVarint → Tag
  | .pos7 _    => .pos7
  | .pos14 _   => .pos14
  | .pos21 _   => .pos21
  | .pos28 _   => .pos28
  | .pos32 _ _ => .pos32
  | .pos64 _ _ => .pos64
  | .neg2 _    => .neg2

/-- The unsigned number of a byte sequence, the first byte most significant (20_memory.md R43, R44). -/
def beNat (bs : List Byte) : Nat := bs.foldl (fun n b => n * 256 + b.toNat) 0

/-- 30_encoding.md R72 to R78: the fields of a varint of fixed-width tag `t`, and the bytes after it. The payload
bits are the lowest bits of the varint's bytes read as one number, so `BitVec.ofNat`, which keeps the lowest
bits, drops exactly the marker bits; the ignored bits `x` are bits 1 and 0 of a marker byte (R83). -/
def decodeFixed (t : Tag) (bs : List Byte) : Except DecodeError (FixedVarint × List Byte) :=
  match t with
  | .pos7 =>
    match bs with
    | b0 :: r => .ok (.pos7 (BitVec.ofNat 7 (beNat [b0])), r)
    | _ => .error .truncated
  | .pos14 =>
    match bs with
    | b0 :: b1 :: r => .ok (.pos14 (BitVec.ofNat 14 (beNat [b0, b1])), r)
    | _ => .error .truncated
  | .pos21 =>
    match bs with
    | b0 :: b1 :: b2 :: r => .ok (.pos21 (BitVec.ofNat 21 (beNat [b0, b1, b2])), r)
    | _ => .error .truncated
  | .pos28 =>
    match bs with
    | b0 :: b1 :: b2 :: b3 :: r => .ok (.pos28 (BitVec.ofNat 28 (beNat [b0, b1, b2, b3])), r)
    | _ => .error .truncated
  | .pos32 =>
    match bs with
    | b0 :: b1 :: b2 :: b3 :: b4 :: r =>
      .ok (.pos32 (BitVec.ofNat 2 b0.toNat) (BitVec.ofNat 32 (beNat [b1, b2, b3, b4])), r)
    | _ => .error .truncated
  | .pos64 =>
    match bs with
    | b0 :: b1 :: b2 :: b3 :: b4 :: b5 :: b6 :: b7 :: b8 :: r =>
      .ok (.pos64 (BitVec.ofNat 2 b0.toNat) (BitVec.ofNat 64 (beNat [b1, b2, b3, b4, b5, b6, b7, b8])), r)
    | _ => .error .truncated
  | .neg2 =>
    match bs with
    | b0 :: r => .ok (.neg2 (BitVec.ofNat 2 (beNat [b0])), r)
    | _ => .error .truncated
  | .negR => .error .secondMarker
  | .invalid => .error .noClass

/-- A varint at the start of `bs`, and the bytes after it: one leading byte decides a fixed-width format, two
decide NEG_R (30_encoding.md R84). The rejections are the causes of Invalid (60_exceptions.md R222). -/
def decodeVarint : List Byte → Except DecodeError (Instr × List Byte)
  | [] => .error .emptyWindow
  | b0 :: r =>
    if classB b0 = .negR then
      match r with
      | [] => .error .markerLast
      | b1 :: _ =>
        match decodeFixed (classB b1) r with
        | .ok (v, r') => .ok (.negR (BitVec.ofNat 2 b0.toNat) v, r')
        | .error e => .error e
    else
      match decodeFixed (classB b0) (b0 :: r) with
      | .ok (v, r') => .ok (.ofFixed v, r')
      | .error e => .error e

/-- 30_encoding.md R91, R94: the command a record of ports selects; ports the command ignores are not read. -/
def decodeCommand (c : Command) : Except DecodeError Instr :=
  match c.op.toNat with
  | 0 => .ok (.classv c.val)
  | 1 => .ok (.classb (c.val.setWidth 8))
  | 2 => .ok (.len c.val)
  | 3 => .ok (.ident ⟨c.win, c.lim.toNat⟩)
  | 4 => .ok (.dec ⟨c.win, c.lim.toNat⟩)
  | 5 => .ok (.enc ⟨c.win, c.lim.toNat⟩ c.val)
  | _ => .error .reservedOp

/-- An instruction as the hardware carries it: on the command ports, or as bytes of a window. -/
inductive Encoded where
  | ports (c : Command)
  | bytes (bs : List Byte)
deriving DecidableEq, Repr

/-- The decoder. Bytes after a varint are not looked at (43_decode.md R174). -/
def decode : Encoded → Except DecodeError Instr
  | .ports c => decodeCommand c
  | .bytes bs =>
    match decodeVarint bs with
    | .ok (i, _) => .ok i
    | .error e => .error e

/-- Byte `k` of a number, counted from the least significant: `(m >> 8k) & 0xFF`. -/
def byteOf (m k : Nat) : Byte := BitVec.ofNat 8 (m / 2 ^ (8 * k))

/-- The bytes of a fixed-width varint, from the tables and formulas of 30_encoding.md R72 to R78
(`b0 == 0x80 | (m >> 8)`, `b1 == m & 0xFF`, and so on; the joined bits do not overlap). -/
def encodeFixed : FixedVarint → List Byte
  | .pos7 m  => [BitVec.ofNat 8 m.toNat]
  | .pos14 m => [BitVec.ofNat 8 (0x80 + m.toNat / 2 ^ 8), byteOf m.toNat 0]
  | .pos21 m => [BitVec.ofNat 8 (0xC0 + m.toNat / 2 ^ 16), byteOf m.toNat 1, byteOf m.toNat 0]
  | .pos28 m =>
    [BitVec.ofNat 8 (0xE0 + m.toNat / 2 ^ 24), byteOf m.toNat 2, byteOf m.toNat 1, byteOf m.toNat 0]
  | .pos32 x m =>
    [BitVec.ofNat 8 (0xF0 + x.toNat), byteOf m.toNat 3, byteOf m.toNat 2, byteOf m.toNat 1, byteOf m.toNat 0]
  | .pos64 x m =>
    [BitVec.ofNat 8 (0xF4 + x.toNat), byteOf m.toNat 7, byteOf m.toNat 6, byteOf m.toNat 5, byteOf m.toNat 4,
      byteOf m.toNat 3, byteOf m.toNat 2, byteOf m.toNat 1, byteOf m.toNat 0]
  | .neg2 m => [BitVec.ofNat 8 (0xFC + m.toNat)]

/-- A NEG_R marker with its ignored bits (30_encoding.md R79). -/
def markerByte (x : BitVec 2) : Byte := BitVec.ofNat 8 (0xF8 + x.toNat)

/-- LIMIT_W is 4 or more (00_scope.md R6), so a limit below 16 fits its port. -/
theorem lt_two_pow_limitWidth {limit : Nat} (h : limit < 16) : limit < 2 ^ Config.limitWidth :=
  Nat.lt_of_lt_of_le h (Nat.pow_le_pow_right (n := 2) (i := 4) (by decide) (Nat.le_add_right 4 Config.limitExtra))

/-- 10_state.md R27: a limit on its port of LIMIT_W bits, the lowest bits of a number too wide for it. A limit below 16 is
told apart because it fits whatever the width, so that what stands on the port can be computed. -/
def limitPort (limit : Nat) : BitVec Config.limitWidth :=
  if h : limit < 16 then BitVec.ofNatLT limit (lt_two_pow_limitWidth h) else BitVec.ofNat Config.limitWidth limit

/-- The encoder: the record of ports of a command (30_encoding.md R90, R91; a port the command ignores carries 0),
the bytes of a varint (R72 to R79). -/
def encode : Instr → Encoded
  | .classv val => .ports ⟨0, val, limitPort 0, 0⟩
  | .classb b   => .ports ⟨1, b.setWidth 64, limitPort 0, 0⟩
  | .len val    => .ports ⟨2, val, limitPort 0, 0⟩
  | .ident W    => .ports ⟨3, 0, limitPort W.limit, W.base⟩
  | .dec W      => .ports ⟨4, 0, limitPort W.limit, W.base⟩
  | .enc W val  => .ports ⟨5, val, limitPort W.limit, W.base⟩
  | .pos7 m     => .bytes (encodeFixed (.pos7 m))
  | .pos14 m    => .bytes (encodeFixed (.pos14 m))
  | .pos21 m    => .bytes (encodeFixed (.pos21 m))
  | .pos28 m    => .bytes (encodeFixed (.pos28 m))
  | .pos32 x m  => .bytes (encodeFixed (.pos32 x m))
  | .pos64 x m  => .bytes (encodeFixed (.pos64 x m))
  | .negR x n   => .bytes (markerByte x :: encodeFixed n)
  | .neg2 m     => .bytes (encodeFixed (.neg2 m))

/-- The bytes of a table word, byte 0 in bits 7 to 0, with zeros above `nbits` up to the longest varint. -/
def tableBytes (nbits w : Nat) : List Byte :=
  (List.range Config.maxLen).map fun k => BitVec.ofNat 8 ((w % 2 ^ nbits) / 2 ^ (8 * k))

/-- A word of the opcode table as the hardware carries it. The table lists two encodings that stand on different
ports: the 3-bit `op` of a command, and the leading byte of a varint. A word of at most one byte with no
bit above bit 2 is read as an `op` (its other ports 0), every other word as the bytes of a varint. (log 5) -/
def tableEncoded (nbits w : Nat) : Encoded :=
  if nbits ≤ 8 ∧ w < 8 then .ports ⟨BitVec.ofNat 3 w, 0, limitPort 0, 0⟩
  else .bytes (tableBytes nbits w)

/-- The instruction the decoder reads from a table word. -/
def decodeTableWord (nbits w : Nat) : Option Instr :=
  match decode (tableEncoded nbits w) with
  | .ok i => some i
  | .error _ => none

end Sys2Proof
end

