-- ==== Sys2Proof/Machine/State.lean ====
section
/-! DEFINITION. The machine's state as plain data. The block itself holds nothing between commands (10_state.md
R20); what stands here is the host's buffer memory, the command each unit has in progress, the response it
gave, and the order of what happens next. -/

namespace Sys2Proof.Machine

/-- What would stop the machine. 93_implementation_defined.md treats nothing as stuck, and neither guard is
ever raised: the rules test before they access. -/
inductive Fault where
  /-- Raised by a byte access of MemRead or MemWrite at an index at or beyond the limit, which 20_memory.md R44
  and R45 leave undefined and say no rule makes. Safe: the run stops instead of reading a byte. -/
  | beyondLimit
  /-- Raised by `mag` and `put` for a tag that is not fixed-width, where 30_encoding.md R81 and R82 do not define
  them. Safe: the run stops instead of giving a magnitude. -/
  | notFixedWidth
deriving DecidableEq, Repr

/-- Launches and host moves the spec gives no meaning. -/
inductive Refusal where
  /-- Raised by an arm of exec whose instruction has no meaning yet. Safe. -/
  | notModelled (mnemonic : String)
  /-- Raised when a command with `op` 6 or 7 is issued or performed: "a model refuses such a command"
  (30_encoding.md R94, 60_exceptions.md R234). Safe. -/
  | reservedOp (op : BitVec 3)
  /-- Raised by IDENT, DEC and ENC, and when one is issued, if the window is not wholly plain memory the host
  owns: "A model refuses such a launch" (60_exceptions.md R235; 20_memory.md R51). Safe. -/
  | windowNotOwned
  /-- Raised when a command is issued whose window overlaps the window of a command in progress, one of the two
  an ENC (20_memory.md R55). Safe. -/
  | windowConflict
  /-- Raised when the host writes or reads a byte of the window of a command in progress (20_memory.md R60: "A model
  gives the host no move on the window during a command"). Safe. -/
  | hostTouchesWindow
  /-- Raised by a move that names a unit that is not there (60_exceptions.md R232). Safe. -/
  | noSuchUnit
deriving DecidableEq, Repr

/-- The error kinds of 60_exceptions.md R220. -/
inductive Raised where
  | invalid
  | insufficientSpace
deriving DecidableEq, Repr

/-- How the pseudocode of a command ends before its result: by `raise` (00_scope.md R11), or because the model
stops. -/
inductive Exit where
  | raise   (e : Raised)
  | fault   (f : Fault)
  | refused (r : Refusal)
deriving DecidableEq, Repr

/-- 10_state.md R28: the result fields of a response. A field that the command does not produce, or that carries
no information (R29, R30, decisions D13 and D14), is `none`: no value stands there for a claim to read. (log 10) -/
structure Response where
  status : Status
  tag    : Option Tag
  rtag   : Option Tag
  length : Option (BitVec 4)
  value  : Option Word
deriving DecidableEq, Repr

/-- The ports of one unit: the command in progress and the response last given (30_encoding.md R90, R95). -/
structure UnitPorts where
  cmd  : Option Command
  resp : Option Response
deriving DecidableEq, Repr

/-- A unit with nothing in progress and no response pending (70_reset_and_hazards.md R260). -/
def UnitPorts.idle : UnitPorts := ⟨none, none⟩

/-- What happens next, in order: the host's issue order (10_state.md R22) and the interleaving of units
(20_memory.md R55). (log 1) -/
inductive Move where
  /-- The host issues a command on the ports of the unit. -/
  | issue (c : Command)
  /-- The unit performs the command in progress and gives its response. -/
  | finish
  /-- The moves that follow are about the `k`-th of the other units. -/
  | switch (k : Nat)
  /-- The host puts a byte into memory it owns. -/
  | poke (a : Nat) (b : Byte)
  /-- The host reads a byte of its memory. -/
  | peek (a : Nat)
  /-- Reset of the unit. Bit `i` of `landed` says whether the byte an abandoned ENC writes at index `i` had
  reached the buffer (70_reset_and_hazards.md R261: "each is either its old value or the value a completed ENC
  would have written, in any combination"). (log 12) -/
  | reset (landed : BitVec 10)
deriving DecidableEq, Repr

/-- The host's buffer memory: (address, byte), addresses strictly rising. An address that is not listed has no
value: it is not plain memory the host owns. (log 6) -/
abbrev Memory := List Host.Cell

/-- The machine. -/
structure State where
  mem    : Memory
  unit   : UnitPorts
  others : List UnitPorts
  moves  : List Move
deriving DecidableEq, Repr

/-- After reset "the block is ready for a command, no response is pending" (70_reset_and_hazards.md R260); the
block touches no buffer, so what memory holds is what the host put there: nothing yet. One unit, the
default of 00_scope.md R6. (log 1, log 17, log 22) -/
def State.reset : State := ⟨[], UnitPorts.idle, [], []⟩

end Sys2Proof.Machine
end

