-- ==== Sys2Proof/Machine/Ops.lean ====
section
/-! DEFINITION. The named operations over memory and over the ports of a unit. -/

namespace Sys2Proof

/-- 00_scope.md R10: the window that starts `k` bytes later. R10 defines it for `k` up to the limit; beyond that the model's
window has limit 0, which is its own choice. (log 28) -/
def Window.sub (W : Window) (k : Nat) : Window := ⟨W.base + k, W.limit - k⟩

namespace Machine

/-- The byte at a host address, if the host owns it. -/
def Memory.read : Memory → Nat → Option Byte
  | [], _ => none
  | (k, b) :: m, a => if a = k then some b else Memory.read m a

/-- Puts a byte at a host address, keeping the addresses strictly rising. -/
def Memory.write : Memory → Nat → Byte → Memory
  | [], a, b => [(a, b)]
  | (k, c) :: m, a, b =>
    if a < k then (a, b) :: (k, c) :: m
    else if a = k then (k, b) :: m
    else (k, c) :: Memory.write m a b

/-- The canonical form of memory: addresses strictly rising. -/
def Memory.wf : Memory → Bool
  | [] => true
  | [_] => true
  | (k, _) :: (k', c) :: m => decide (k < k') && Memory.wf ((k', c) :: m)

/-- 60_exceptions.md R235: the host owns every byte the limit promises. -/
def windowOwned (m : Memory) (W : Window) : Bool :=
  (List.range W.limit).all fun i => (m.read (W.base + i)).isSome

/-- One byte access (20_memory.md R48): `MemRead(W, i, 1)`, "the byte `W[i]`" (R44). -/
def memByte (m : Memory) (W : Window) (i : Nat) : Except Exit Byte :=
  if i < W.limit then
    match m.read (W.base + i) with
    | some b => .ok b
    | none => .error (.refused .windowNotOwned)
  else .error (.fault .beyondLimit)

/-- 20_memory.md R44: `MemRead(W, a, n)`, big-endian, one byte access per index (R48). R44 defines it for `n` of 1 or more;
that 0 bytes read as 0 is the model's choice. (log 28) -/
def memRead (m : Memory) (W : Window) (a : Nat) : Nat → Except Exit Nat
  | 0 => .ok 0
  | n + 1 =>
    match memRead m W a n with
    | .error e => .error e
    | .ok hi =>
      match memByte m W (a + n) with
      | .error e => .error e
      | .ok lo => .ok (hi * 256 + lo.toNat)

/-- One byte access (20_memory.md R48): `W[i] <- b`. -/
def memSet (m : Memory) (W : Window) (i : Nat) (b : Byte) : Except Exit Memory :=
  if i < W.limit then
    match m.read (W.base + i) with
    | some _ => .ok (m.write (W.base + i) b)
    | none => .error (.refused .windowNotOwned)
  else .error (.fault .beyondLimit)

/-- 20_memory.md R45: `MemWrite(W, a, n, v)`, the most significant byte of `v` at the lowest index. R45 defines it for `n` of
1 or more and `v` below 256^n; that 0 bytes change nothing, and that the lowest `n` bytes of a larger `v` are written,
is the model's choice. (log 28) -/
def memWrite (m : Memory) (W : Window) (a : Nat) : Nat → Nat → Except Exit Memory
  | 0, _ => .ok m
  | n + 1, v =>
    match memSet m W a (BitVec.ofNat 8 (v / 2 ^ (8 * n))) with
    | .error e => .error e
    | .ok m' => memWrite m' W (a + 1) n v

/-- 44_encode.md R196: "write bytes at W[a .. b]", one `MemWrite(W, i, 1, byte)` per index. -/
def writeBytes (m : Memory) (W : Window) (a : Nat) : List Byte → Except Exit Memory
  | [] => .ok m
  | b :: bs =>
    match memWrite m W a 1 b.toNat with
    | .error e => .error e
    | .ok m' => writeBytes m' W (a + 1) bs

/-- The response of a command that met an error: its status and length 0; no other field carries information
(60_exceptions.md R222, R223; decision D14). (log 10) -/
def Response.failure : Raised → Response
  | .invalid           => ⟨.invalid, none, none, some 0, none⟩
  | .insufficientSpace => ⟨.insufficientSpace, none, none, some 0, none⟩

/-- 20_memory.md R54, 30_encoding.md R95: the command is complete and its response given. -/
def State.respond (s : State) (r : Response) : State :=
  { s with unit := ⟨none, some r⟩ }

/-- 00_scope.md R11: `raise`. An error is a value of the response and no trap: nothing is saved and control goes
nowhere (60_exceptions.md R228), so there is nothing to return from (R229). -/
def State.raise (s : State) (e : Raised) : State :=
  s.respond (Response.failure e)

/-- How a command that leaves the buffer alone ends, from the way its pseudocode ended. -/
def State.conclude (s : State) : Except Exit Response → Host.Outcome State Fault Refusal
  | .ok r => .next (s.respond r)
  | .error (.raise e) => .next (s.raise e)
  | .error (.fault f) => .fault f
  | .error (.refused r) => .refused r

/-- The next state, where there is one. -/
def nextState? : Host.Outcome State Fault Refusal → Option State
  | .next s => some s
  | .fault _ => none
  | .refused _ => none

end Machine

end Sys2Proof
end

