-- ==== Sys2Proof/Machine/Operands.lean ====
section
/-! DEFINITION. Values, magnitudes and tags: the functions of 00_scope.md R8, 30_encoding.md R81 and R82,
40_classify.md R114 and R115 and 41_length.md R131 that the operations share. -/

namespace Sys2Proof.Machine

/-- 00_scope.md R8: two's complement negation, `(2^64 - u64(w)) mod 2^64`. -/
def neg64 (w : Word) : Word := BitVec.ofNat 64 (2 ^ 64 - u64 w)

/-- 40_classify.md R115: the narrowest positive tag that holds an unsigned magnitude. -/
def posclass (m : Word) : Tag :=
  if u64 m < 2 ^ 7 then .pos7
  else if u64 m < 2 ^ 14 then .pos14
  else if u64 m < 2 ^ 21 then .pos21
  else if u64 m < 2 ^ 28 then .pos28
  else if u64 m < 2 ^ 32 then .pos32
  else .pos64

/-- 40_classify.md R114: the canonical tag of a value. -/
def classV (val : Word) : Tag :=
  if s64 val < -3 then .negR
  else if s64 val ≤ -1 then .neg2
  else posclass val

/-- 41_length.md R131: the encoded length of a value. -/
def lenV (val : Word) : Nat :=
  if classV val = .negR then 1 + fixlen (posclass (neg64 val))
  else fixlen (classV val)

/-- 30_encoding.md R81: the magnitude of a varint of fixed-width tag `t` at the start of the window. -/
def mag (m : Memory) (t : Tag) (W : Window) : Except Exit Word :=
  match t with
  | .pos7 => do
    let b0 ← memByte m W 0
    return (b0 &&& 0x7F#8).setWidth 64
  | .pos14 => do
    let b0 ← memByte m W 0
    let lo ← memRead m W 1 1
    return BitVec.ofNat 64 ((b0 &&& 0x3F#8).toNat * 2 ^ 8 + lo)
  | .pos21 => do
    let b0 ← memByte m W 0
    let lo ← memRead m W 1 2
    return BitVec.ofNat 64 ((b0 &&& 0x1F#8).toNat * 2 ^ 16 + lo)
  | .pos28 => do
    let b0 ← memByte m W 0
    let lo ← memRead m W 1 3
    return BitVec.ofNat 64 ((b0 &&& 0x0F#8).toNat * 2 ^ 24 + lo)
  | .pos32 => do
    let v ← memRead m W 1 4
    return BitVec.ofNat 64 v
  | .pos64 => do
    let v ← memRead m W 1 8
    return BitVec.ofNat 64 v
  | .neg2 => do
    let b0 ← memByte m W 0
    return (b0 &&& 0x03#8).setWidth 64
  | .negR => .error (.fault .notFixedWidth)
  | .invalid => .error (.fault .notFixedWidth)

/-- `(m >> 8k) & 0xFF` of a word. -/
def byteAt (m : Word) (k : Nat) : Byte := byteOf (u64 m) k

/-- 30_encoding.md R82: the bytes of magnitude `m` under fixed-width tag `t`, byte 0 first. For a magnitude outside the
range of `t`, where R82 defines nothing, the bytes hold the low bits of their places, which is the model's choice; no
meaning asks for such bytes. (log 27) -/
def put (t : Tag) (m : Word) : Except Exit (List Byte) :=
  match t with
  | .pos7  => .ok [byteAt m 0]
  | .pos14 => .ok [0x80#8 + byteAt m 1, byteAt m 0]
  | .pos21 => .ok [0xC0#8 + byteAt m 2, byteAt m 1, byteAt m 0]
  | .pos28 => .ok [0xE0#8 + byteAt m 3, byteAt m 2, byteAt m 1, byteAt m 0]
  | .pos32 => .ok [0xF0#8, byteAt m 3, byteAt m 2, byteAt m 1, byteAt m 0]
  | .pos64 =>
    .ok [0xF4#8, byteAt m 7, byteAt m 6, byteAt m 5, byteAt m 4, byteAt m 3, byteAt m 2, byteAt m 1,
      byteAt m 0]
  | .neg2  => .ok [0xFC#8 + byteAt m 0]
  | .negR => .error (.fault .notFixedWidth)
  | .invalid => .error (.fault .notFixedWidth)

end Sys2Proof.Machine
end

