-- ==== Sys2Proof/Machine/Flags.lean ====
section
/-! DEFINITION. The block holds no flag and no condition code (10_state.md R23). What takes their place is the
response of a command: which fields each operation produces (R29), and how the ports present them
(30_encoding.md R92, R93). -/

namespace Sys2Proof.Machine

/-- CLASSV and CLASSB produce `tag`; the status of an operation that cannot fail is OK (10_state.md R29, R30). -/
def Response.classified (t : Tag) : Response := ⟨.ok, some t, none, none, none⟩

/-- LEN and a successful ENC produce `length` (10_state.md R29). -/
def Response.measured (n : Nat) : Response := ⟨.ok, none, none, some (BitVec.ofNat 4 n), none⟩

/-- A successful IDENT produces `tag` and `length`, and `rtag` when `tag` is NEG_R (10_state.md R29). -/
def Response.identified (t r : Tag) (n : Nat) : Response :=
  ⟨.ok, some t, if t = .negR then some r else none, some (BitVec.ofNat 4 n), none⟩

/-- A successful DEC produces `value` and `length` (10_state.md R29). -/
def Response.decoded (v : Word) (n : Nat) : Response := ⟨.ok, none, none, some (BitVec.ofNat 4 n), some v⟩

/-- 30_encoding.md R92: the number of a tag on the `tag` and `rtag` ports. -/
def tagCode : Tag → BitVec 4
  | .invalid => 0
  | .pos7    => 1
  | .pos14   => 2
  | .pos21   => 3
  | .pos28   => 4
  | .pos32   => 5
  | .pos64   => 6
  | .neg2    => 7
  | .negR    => 8

/-- 30_encoding.md R93: the number of a status on its port. -/
def statusCode : Status → BitVec 2
  | .ok                => 0
  | .invalid           => 1
  | .insufficientSpace => 2

/-- 10_state.md R28: the result ports, as bits. -/
structure ResultPorts where
  status : BitVec 2
  tag    : BitVec 4
  rtag   : BitVec 4
  length : BitVec 4
  value  : BitVec 64
deriving DecidableEq, Repr

/-- The result ports that show a response, when `dc` stands on the fields that carry no information. -/
def Response.ports (r : Response) (dc : ResultPorts) : ResultPorts :=
  { status := statusCode r.status
    tag    := (r.tag.map tagCode).getD dc.tag
    rtag   := (r.rtag.map tagCode).getD dc.rtag
    length := r.length.getD dc.length
    value  := r.value.getD dc.value }

/-- 10_state.md R30: "This hardware drives such a field to zero". -/
def Response.driven (r : Response) : ResultPorts := r.ports ⟨0, 0, 0, 0, 0⟩

end Sys2Proof.Machine
end

