-- ==== Sys2Proof/Machine/Classify.lean ====
section
/-! DEFINITION. The classifier (40_classify.md). -/

namespace Sys2Proof.Machine

/-- CLASSV (40_classify.md R113). -/
def execClassv (val : Word) (s : State) : Host.Outcome State Fault Refusal :=
  .next (s.respond (Response.classified (classV val)))

/-- CLASSB (40_classify.md R110). -/
def execClassb (b : Byte) (s : State) : Host.Outcome State Fault Refusal :=
  .next (s.respond (Response.classified (classB b)))

end Sys2Proof.Machine
end

