-- ==== Sys2Proof/Machine/Identify.lean ====
section
/-! DEFINITION. The identifier (42_identify.md). -/

namespace Sys2Proof.Machine

/-- What a successful `ident` returns. -/
structure Identified where
  tag    : Tag
  rtag   : Tag
  length : Nat
deriving DecidableEq, Repr

/-- 42_identify.md R146, test by test. -/
def ident (m : Memory) (W : Window) : Except Exit Identified :=
  if W.limit = 0 then .error (.raise .invalid)
  else
    match memByte m W 0 with
    | .error e => .error e
    | .ok b0 =>
      if classB b0 = .invalid then .error (.raise .invalid)
      else if classB b0 ≠ .negR then .ok ⟨classB b0, .invalid, fixlen (classB b0)⟩
      else if W.limit - 1 = 0 then .error (.raise .invalid)
      else
        match memByte m W 1 with
        | .error e => .error e
        | .ok b1 =>
          if classB b1 = .invalid then .error (.raise .invalid)
          else if classB b1 = .negR then .error (.raise .invalid)
          else .ok ⟨.negR, classB b1, 1 + fixlen (classB b1)⟩

/-- IDENT (42_identify.md R140). A window that is not the host's is refused (60_exceptions.md R235). -/
def execIdent (W : Window) (s : State) : Host.Outcome State Fault Refusal :=
  if windowOwned s.mem W then
    s.conclude ((ident s.mem W).map fun i => Response.identified i.tag i.rtag i.length)
  else .refused .windowNotOwned

end Sys2Proof.Machine
end

