-- ==== Sys2Proof/Machine/Decoder.lean ====
section
/-! DEFINITION. The decoder (43_decode.md). -/

namespace Sys2Proof.Machine

/-- What a successful `dec` returns. -/
structure Decoded where
  value  : Word
  length : Nat
deriving DecidableEq, Repr

/-- 43_decode.md R167, `dec_fixed`: the word of a varint of a fixed-width tag. -/
def decFixed (m : Memory) (t : Tag) (W : Window) : Except Exit Word :=
  if t = .neg2 then (mag m .neg2 W).map neg64 else mag m t W

/-- 43_decode.md R167, `dec`. -/
def dec (m : Memory) (W : Window) : Except Exit Decoded :=
  match ident m W with
  | .error e => .error e
  | .ok i =>
    if W.limit < i.length then .error (.raise .invalid)
    else if i.tag = .negR then
      (decFixed m i.rtag (W.sub 1)).map fun n => ⟨neg64 n, i.length⟩
    else (decFixed m i.tag W).map fun v => ⟨v, i.length⟩

/-- DEC (43_decode.md R160). A window that is not the host's is refused (60_exceptions.md R235). -/
def execDec (W : Window) (s : State) : Host.Outcome State Fault Refusal :=
  if windowOwned s.mem W then
    s.conclude ((dec s.mem W).map fun d => Response.decoded d.value d.length)
  else .refused .windowNotOwned

end Sys2Proof.Machine
end

