-- ==== Sys2Proof/Machine/Encoder.lean ====
section
/-! DEFINITION. The encoder (44_encode.md). -/

namespace Sys2Proof.Machine

/-- How `enc` ends: the buffer it leaves, and the bytes written or, for InsufficientSpace, `none`. -/
structure EncResult where
  mem     : Memory
  written : Option Nat
deriving DecidableEq, Repr

/-- 44_encode.md R195 and R198: the encoder of a value whose tag is NEG_R, under a setting of ENC_FAIL_WRITE. With
MARKER the marker byte is written before the nested encode is found not to fit. -/
def encNegR (fw : EncFailWrite) (m : Memory) (W : Window) (val : Word) : Except Exit EncResult :=
  if W.limit < 2 then .ok ⟨m, none⟩
  else if W.limit - 1 < fixlen (posclass (neg64 val)) then
    match fw with
    | .none => .ok ⟨m, none⟩
    | .marker => (memWrite m W 0 1 0xF8).map fun m' => ⟨m', none⟩
  else do
    let m' ← memWrite m W 0 1 0xF8
    let bs ← put (posclass (neg64 val)) (neg64 val)
    let m'' ← writeBytes m' (W.sub 1) 0 bs
    return ⟨m'', some (1 + fixlen (posclass (neg64 val)))⟩

/-- 44_encode.md R192 to R194: the encoder of a value whose tag `t` is fixed-width. -/
def encFixed (m : Memory) (W : Window) (val : Word) (t : Tag) : Except Exit EncResult :=
  if W.limit < fixlen t then .ok ⟨m, none⟩
  else do
    let bs ← if t = .neg2 then .ok [0xFC#8 ||| byteAt (neg64 val) 0] else put t val
    let m' ← writeBytes m W 0 bs
    return ⟨m', some (fixlen t)⟩

/-- 44_encode.md R196, with the two settings of R198. -/
def enc (fw : EncFailWrite) (m : Memory) (W : Window) (val : Word) : Except Exit EncResult :=
  if classV val = .negR then encNegR fw m W val else encFixed m W val (classV val)

/-- The response and the buffer of an ENC that ended with `r`. -/
def State.concludeEnc (s : State) : Except Exit EncResult → Host.Outcome State Fault Refusal
  | .ok r =>
    match r.written with
    | some n => .next (State.respond { s with mem := r.mem } (Response.measured n))
    | none => .next (State.raise { s with mem := r.mem } .insufficientSpace)
  | .error e => s.conclude (.error e)

/-- ENC (44_encode.md R190). A window that is not the host's is refused (60_exceptions.md R235). -/
def execEnc (W : Window) (val : Word) (s : State) : Host.Outcome State Fault Refusal :=
  if windowOwned s.mem W then s.concludeEnc (enc Config.encFailWrite s.mem W val)
  else .refused .windowNotOwned

end Sys2Proof.Machine
end

