-- ==== Sys2Proof/Machine/Length.lean ====
section
/-! DEFINITION. The length calculator (41_length.md). -/

namespace Sys2Proof.Machine

/-- LEN (41_length.md R130). -/
def execLen (val : Word) (s : State) : Host.Outcome State Fault Refusal :=
  .next (s.respond (Response.measured (lenV val)))

end Sys2Proof.Machine
end

