-- ==== Sys2Proof/Machine/Varint.lean ====
section
/-! DEFINITION. The wire formats as instructions: what the decoder's routine for a tag does with the varint it
finds (00_scope.md R3: "dispatches to the matching byte-reading routine"; 43_decode.md R163 to R165). The
response is that of a DEC. (log 4) -/

namespace Sys2Proof.Machine

/-- 43_decode.md R163, R164: the word of a fixed-width varint, from its payload bits. -/
def fixedWord : FixedVarint → Word
  | .pos7 m    => m.setWidth 64
  | .pos14 m   => m.setWidth 64
  | .pos21 m   => m.setWidth 64
  | .pos28 m   => m.setWidth 64
  | .pos32 _ m => m.setWidth 64
  | .pos64 _ m => m
  | .neg2 m    => neg64 (m.setWidth 64)

/-- The decoder found a fixed-width varint: its word and its length. -/
def State.foundFixed (s : State) (v : FixedVarint) : Host.Outcome State Fault Refusal :=
  .next (s.respond (Response.decoded (fixedWord v) (fixlen v.tag)))

/-- POS_7 (30_encoding.md R72). -/
def execPos7 (m : BitVec 7) (s : State) : Host.Outcome State Fault Refusal :=
  s.foundFixed (.pos7 m)

/-- POS_14 (30_encoding.md R73). -/
def execPos14 (m : BitVec 14) (s : State) : Host.Outcome State Fault Refusal :=
  s.foundFixed (.pos14 m)

/-- POS_21 (30_encoding.md R74). -/
def execPos21 (m : BitVec 21) (s : State) : Host.Outcome State Fault Refusal :=
  s.foundFixed (.pos21 m)

/-- POS_28 (30_encoding.md R75). -/
def execPos28 (m : BitVec 28) (s : State) : Host.Outcome State Fault Refusal :=
  s.foundFixed (.pos28 m)

/-- POS_32 (30_encoding.md R76); the two low bits of the marker are ignored (R83). -/
def execPos32 (x : BitVec 2) (m : BitVec 32) (s : State) : Host.Outcome State Fault Refusal :=
  s.foundFixed (.pos32 x m)

/-- POS_64 (30_encoding.md R77): the value is the word as it stands (43_decode.md R169). -/
def execPos64 (x : BitVec 2) (m : BitVec 64) (s : State) : Host.Outcome State Fault Refusal :=
  s.foundFixed (.pos64 x m)

/-- NEG_R (30_encoding.md R79): the nested word, negated (43_decode.md R165, R170). -/
def execNegR (_x : BitVec 2) (n : FixedVarint) (s : State) : Host.Outcome State Fault Refusal :=
  .next (s.respond (Response.decoded (neg64 (fixedWord n)) (1 + fixlen n.tag)))

/-- NEG_2 (30_encoding.md R78). -/
def execNeg2 (m : BitVec 2) (s : State) : Host.Outcome State Fault Refusal :=
  s.foundFixed (.neg2 m)

end Sys2Proof.Machine
end

