-- ==== Sys2Proof/Machine/Dispatch.lean ====
section
/-! DEFINITION. One arm per instruction, each a direct call of its meaning. -/

namespace Sys2Proof.Machine

def exec (i : Instr) (s : State) : Host.Outcome State Fault Refusal :=
  match i with
  | .classv val => Sys2Proof.Machine.execClassv val s
  | .classb b => Sys2Proof.Machine.execClassb b s
  | .len val => Sys2Proof.Machine.execLen val s
  | .ident W => Sys2Proof.Machine.execIdent W s
  | .dec W => Sys2Proof.Machine.execDec W s
  | .enc W val => Sys2Proof.Machine.execEnc W val s
  | .pos7 m => Sys2Proof.Machine.execPos7 m s
  | .pos14 m => Sys2Proof.Machine.execPos14 m s
  | .pos21 m => Sys2Proof.Machine.execPos21 m s
  | .pos28 m => Sys2Proof.Machine.execPos28 m s
  | .pos32 x m => Sys2Proof.Machine.execPos32 x m s
  | .pos64 x m => Sys2Proof.Machine.execPos64 x m s
  | .negR x n => Sys2Proof.Machine.execNegR x n s
  | .neg2 m => Sys2Proof.Machine.execNeg2 m s

end Sys2Proof.Machine
end

