-- ==== Sys2Proof/Machine/Launch.lean ====
section
/-! DEFINITION. How commands come to run: what the host and the units do between and around the meanings
(20_memory.md R54, R55, R60; 60_exceptions.md R232, R234, R235; 70_reset_and_hazards.md R260, R261). -/

namespace Sys2Proof

/-- The window of a command, where it has one: IDENT, DEC and ENC (10_state.md R27). -/
def Command.window? (c : Command) : Option Window :=
  if c.op = 3 ∨ c.op = 4 ∨ c.op = 5 then some ⟨c.win, c.lim.toNat⟩ else none

/-- ENC is the one operation that writes a window (20_memory.md R41). -/
def Command.writes (c : Command) : Bool := decide (c.op = 5)

/-- Two windows share a byte. -/
def Window.overlaps (V W : Window) : Bool :=
  decide (max V.base W.base < min (V.base + V.limit) (W.base + W.limit))

/-- Address `a` lies in the window. -/
def Window.covers (W : Window) (a : Nat) : Bool := decide (W.base ≤ a) && decide (a < W.base + W.limit)

/-- 20_memory.md R60: "A model gives the host no move on the window during a command". -/
def Command.guards (a : Nat) (c : Command) : Bool :=
  match c.window? with
  | some W => W.covers a
  | none => false

namespace Machine

/-- 20_memory.md R55: two commands that may not run at the same time. -/
def conflict (c d : Command) : Bool :=
  match c.window?, d.window? with
  | some V, some W => V.overlaps W && (c.writes || d.writes)
  | _, _ => false

/-- The commands in progress at a list of units. -/
def inProgress (us : List UnitPorts) : List Command := us.filterMap UnitPorts.cmd

/-- Every unit, the one the next moves are about first. -/
def State.units (s : State) : List UnitPorts := s.unit :: s.others

/-- Why the launch of `c` on this unit is refused, if it is. -/
def launchRefusal (c : Command) (s : State) : Option Refusal :=
  match decodeCommand c with
  | .error _ => some (.reservedOp c.op)
  | .ok _ =>
    match c.window? with
    | none => none
    | some W =>
      if windowOwned s.mem W = false then some .windowNotOwned
      else if (inProgress s.others).any (conflict c) then some .windowConflict
      else none

/-- The host issues `c`: it is in progress from now on, and no response is pending. (log 14) -/
def issue (c : Command) (s : State) : Host.Outcome State Fault Refusal :=
  match launchRefusal c s with
  | some r => .refused r
  | none => .next { s with unit := ⟨some c, none⟩ }

/-- The unit performs the command `c` on its ports. -/
def perform (c : Command) (s : State) : Host.Outcome State Fault Refusal :=
  match decodeCommand c with
  | .ok i => exec i s
  | .error _ => .refused (.reservedOp c.op)

/-- The `k`-th of the other units changes places with this one. -/
def switchTo (k : Nat) (s : State) : Host.Outcome State Fault Refusal :=
  match s.others[k]? with
  | some u => .next { s with unit := u, others := s.others.set k s.unit }
  | none => .refused .noSuchUnit

/-- Some command in progress has the address in its window. -/
def State.inUse (s : State) (a : Nat) : Bool := (inProgress s.units).any (Command.guards a)

/-- The host puts a byte into memory; from then on the address is memory it owns. Refused inside a window in use
(20_memory.md R60). (log 19) -/
def poke (a : Nat) (b : Byte) (s : State) : Host.Outcome State Fault Refusal :=
  if s.inUse a then .refused .hostTouchesWindow
  else .next { s with mem := s.mem.write a b }

/-- The host reads a byte; plain memory is not changed by that (20_memory.md R51). Refused inside a window in use, as a
write is: R60 gives the host no move there, a read of a byte no command writes included. -/
def peek (a : Nat) (s : State) : Host.Outcome State Fault Refusal :=
  if s.inUse a then .refused .hostTouchesWindow
  else .next s

/-- `old` with the first bytes of the window taken from `new` where the bit of `landed` is set: the first `n`
indexes. -/
def landBytes (landed : BitVec 10) (W : Window) (new old : Memory) : Nat → Memory
  | 0 => old
  | n + 1 =>
    let m := landBytes landed W new old n
    if landed.getLsbD n then
      match Memory.read new (W.base + n) with
      | some b => Memory.write m (W.base + n) b
      | none => m
    else m

/-- 70_reset_and_hazards.md R261: the buffer after a reset that abandons the command `c`. Only an ENC can have
changed it, and only at indexes 0 to min(limit, 10) - 1. -/
def abandoned (landed : BitVec 10) (c : Command) (m : Memory) : Memory :=
  match decodeCommand c with
  | .ok (.enc W val) =>
    match enc Config.encFailWrite m W val with
    | .ok r => landBytes landed W r.mem m (min W.limit Config.maxLen)
    | .error _ => m
  | _ => m

/-- Reset of the unit (70_reset_and_hazards.md R260, R261): ready for a command, no response pending, a command in
progress abandoned. (log 13) -/
def resetUnit (landed : BitVec 10) (s : State) : Host.Outcome State Fault Refusal :=
  let m := match s.unit.cmd with
    | some c => abandoned landed c s.mem
    | none => s.mem
  .next { s with mem := m, unit := UnitPorts.idle }

/-- The place among the others of the first unit with a command in progress. -/
def firstBusy (us : List UnitPorts) : Option Nat := us.findIdx? fun u => u.cmd.isSome

/-- With no move left the units run on: "Every command ends" (70_reset_and_hazards.md R273). This unit first, then
any other; a machine with nothing in progress waits. (log 16) -/
def runOn (s : State) : Host.Outcome State Fault Refusal :=
  match s.unit.cmd with
  | some c => perform c s
  | none =>
    match firstBusy s.others with
    | some k => switchTo k s
    | none => .next s

/-- One move of the list. A unit executes one command at a time, so a command issued while another is in progress
waits until that one is complete (20_memory.md R54). (log 15) -/
def takeMove (mv : Move) (rest : List Move) (s : State) : Host.Outcome State Fault Refusal :=
  match mv with
  | .issue c =>
    match s.unit.cmd with
    | some d => perform d s
    | none => issue c { s with moves := rest }
  | .finish =>
    match s.unit.cmd with
    | some c => perform c { s with moves := rest }
    | none => .next { s with moves := rest }
  | .switch k => switchTo k { s with moves := rest }
  | .poke a b => poke a b { s with moves := rest }
  | .peek a => peek a { s with moves := rest }
  | .reset landed => resetUnit landed { s with moves := rest }

/-- One step of the machine. -/
def act (s : State) : Host.Outcome State Fault Refusal :=
  match s.moves with
  | [] => runOn s
  | mv :: rest => takeMove mv rest s

/-- Bytes at rising addresses from `a`. -/
def placeBytes (m : Memory) (a : Nat) : List Byte → Memory
  | [] => m
  | b :: bs => placeBytes (m.write a b) (a + 1) bs

/-- The state whose next step performs a table word: a command in progress on the ports, or the bytes of a
varint at address 0 and a DEC of them in progress, whose window has room for the longest varint. (log 3) -/
def placeTableWord (nbits w : Nat) (s : State) : State :=
  match tableEncoded nbits w with
  | .ports c => { s with unit := ⟨some c, none⟩, moves := .finish :: s.moves }
  | .bytes bs =>
    { s with
      mem := placeBytes s.mem 0 bs
      unit := ⟨some ⟨4, 0, limitPort bs.length, 0⟩, none⟩
      moves := .finish :: s.moves }

end Machine

end Sys2Proof
end

