-- ==== Sys2Proof/Machine/Step.lean ====
section
/-! DEFINITION. One step of the machine, and the placing of a table word where the next step takes it. -/

namespace Sys2Proof.Machine

/-- One step (Machine/Launch.lean says what it does). -/
def step (s : State) : Host.Outcome State Fault Refusal := act s

/-- The state whose next step runs the instruction of a table word (Machine/Launch.lean). -/
def State.withFetchWord (s : State) (nbits w : Nat) : State := placeTableWord nbits w s

end Sys2Proof.Machine
end

