-- ==== Sys2Proof/Machine/Tables.lean ====
section
/-! DEFINITION. The spec's own tables and the relations the statements speak in: the leading-byte table
(30_encoding.md R71, R86), the boundary tables (40_classify.md R117, 41_length.md R134), the canonical
varint of a value (40_classify.md R116), and what bytes memory holds. -/

namespace Sys2Proof

/-- The magnitude a fixed-width varint's payload bits hold (30_encoding.md R81). -/
def FixedVarint.payload : FixedVarint → Nat
  | .pos7 m    => m.toNat
  | .pos14 m   => m.toNat
  | .pos21 m   => m.toNat
  | .pos28 m   => m.toNat
  | .pos32 _ m => m.toNat
  | .pos64 _ m => m.toNat
  | .neg2 m    => m.toNat

namespace Machine

/-- A row of 30_encoding.md R71 and R86: the mask and match of the leading byte, its range, how many low bits of
the leading byte carry magnitude, and `fixlen` (none in the NEG_R row). -/
structure LeadRow where
  tag     : Tag
  mask    : Byte
  value   : Byte
  first   : Nat
  last    : Nat
  payload : Nat
  fixlen  : Option Nat
deriving DecidableEq, Repr

/-- 30_encoding.md R71, in the table's order. -/
def leadTable : List LeadRow :=
  [⟨.pos7,  0x80, 0x00, 0x00, 0x7F, 7, some 1⟩,
   ⟨.pos14, 0xC0, 0x80, 0x80, 0xBF, 6, some 2⟩,
   ⟨.pos21, 0xE0, 0xC0, 0xC0, 0xDF, 5, some 3⟩,
   ⟨.pos28, 0xF0, 0xE0, 0xE0, 0xEF, 4, some 4⟩,
   ⟨.pos32, 0xFC, 0xF0, 0xF0, 0xF3, 0, some 5⟩,
   ⟨.pos64, 0xFC, 0xF4, 0xF4, 0xF7, 0, some 9⟩,
   ⟨.neg2,  0xFC, 0xFC, 0xFC, 0xFF, 2, some 1⟩,
   ⟨.negR,  0xFC, 0xF8, 0xF8, 0xFB, 0, none⟩]

/-- A NEG_R marker: any of the bytes 0xF8 to 0xFB (30_encoding.md R83). -/
def isMarker (b : Byte) : Prop := b &&& 0xFC#8 = 0xF8#8

/-- A leading byte of the row: `(b & mask) == match`. -/
def LeadRow.matches (r : LeadRow) (b : Byte) : Prop := b &&& r.mask = r.value

/-- A row of 40_classify.md R117 and 41_length.md R134: the values from `lo` to `hi`, their tag, the tag of the
nested varint where there is one, and the encoded length. -/
structure ValueRow where
  lo     : Int
  hi     : Int
  tag    : Tag
  nested : Option Tag
  length : Nat
deriving DecidableEq, Repr

/-- 40_classify.md R117 and 41_length.md R134, row by row. -/
def valueTable : List ValueRow :=
  [⟨-2 ^ 63,     -2 ^ 32,     .negR,  some .pos64, 10⟩,
   ⟨-2 ^ 32 + 1, -2 ^ 28,     .negR,  some .pos32, 6⟩,
   ⟨-2 ^ 28 + 1, -2 ^ 21,     .negR,  some .pos28, 5⟩,
   ⟨-2 ^ 21 + 1, -2 ^ 14,     .negR,  some .pos21, 4⟩,
   ⟨-2 ^ 14 + 1, -2 ^ 7,      .negR,  some .pos14, 3⟩,
   ⟨-127,        -4,          .negR,  some .pos7,  2⟩,
   ⟨-3,          -1,          .neg2,  none,        1⟩,
   ⟨0,           127,         .pos7,  none,        1⟩,
   ⟨128,         16383,       .pos14, none,        2⟩,
   ⟨16384,       2097151,     .pos21, none,        3⟩,
   ⟨2097152,     268435455,   .pos28, none,        4⟩,
   ⟨268435456,   4294967295,  .pos32, none,        5⟩,
   ⟨4294967296,  2 ^ 63 - 1,  .pos64, none,        9⟩]

/-- The narrowest positive varint of a magnitude, the ignored bits 0 (40_classify.md R116, 30_encoding.md R83). -/
def narrowest (m : Word) : FixedVarint :=
  if u64 m < 2 ^ 7 then .pos7 (m.setWidth 7)
  else if u64 m < 2 ^ 14 then .pos14 (m.setWidth 14)
  else if u64 m < 2 ^ 21 then .pos21 (m.setWidth 21)
  else if u64 m < 2 ^ 28 then .pos28 (m.setWidth 28)
  else if u64 m < 2 ^ 32 then .pos32 0 (m.setWidth 32)
  else .pos64 0 m

/-- 40_classify.md R116: the canonical varint of a value: NEG_R over the narrowest varint of the magnitude for a value
of -4 or below, NEG_2 for -3, -2 and -1, the narrowest positive varint otherwise. -/
def canonical (val : Word) : Instr :=
  if s64 val ≤ -4 then .negR 0 (narrowest (neg64 val))
  else if s64 val ≤ -1 then .neg2 ((neg64 val).setWidth 2)
  else .ofFixed (narrowest val)

/-- The window of IDENT, DEC and ENC; no other instruction has one (20_memory.md R41). -/
def windowOf : Instr → Option Window
  | .classv _  => none
  | .classb _  => none
  | .len _     => none
  | .ident W   => some W
  | .dec W     => some W
  | .enc W _   => some W
  | .pos7 _    => none
  | .pos14 _   => none
  | .pos21 _   => none
  | .pos28 _   => none
  | .pos32 _ _ => none
  | .pos64 _ _ => none
  | .negR _ _  => none
  | .neg2 _    => none

/-- The bytes of a varint (30_encoding.md R72 to R79); a command has none. -/
def wireBytes (i : Instr) : List Byte :=
  match encode i with
  | .bytes bs => bs
  | .ports _ => []

/-- The host's memory holds the bytes `bs` from address `a` on. -/
def Memory.holds (m : Memory) (a : Nat) (bs : List Byte) : Prop :=
  ∀ i, i < bs.length → m.read (a + i) = bs[i]?

/-- Every byte but the `n` from address `a` on reads in `m'` as in `m`. -/
def Memory.sameOutside (m m' : Memory) (a n : Nat) : Prop :=
  ∀ x, x < a ∨ a + n ≤ x → m'.read x = m.read x

end Machine

end Sys2Proof
end

