-- ==== Sys2Proof/Safety.lean ====
section
/-! DEFINITION. What counts as a safe run, in the terms the statements use. -/

namespace Sys2Proof.Machine

/-- The launches in progress keep the host's side of the contract (70_reset_and_hazards.md R263): every command in
progress is one of the six, every window is memory the host owns, and no ENC shares a byte with the window
of another command in progress (20_memory.md R55). -/
def State.LaunchesLegal (s : State) : Prop :=
  (∀ c ∈ inProgress s.units, (∃ i, decodeCommand c = .ok i) ∧
    ∀ W, c.window? = some W → windowOwned s.mem W = true) ∧
  (inProgress s.units).Pairwise fun c d => conflict c d = false

/-- The canonical form of memory (Memory.wf) holds. -/
def State.MemoryCanonical (s : State) : Prop := Memory.wf s.mem = true

/-- The outcome reports Invalid from `s`: status INVALID, length 0 (60_exceptions.md R222), and nothing of the state but
the unit's ports changed. Of the response's other fields it says nothing: they carry no information. (log 10) -/
def reportsInvalid (s : State) (o : Host.Outcome State Fault Refusal) : Prop :=
  ∃ r : Response, r.status = .invalid ∧ r.length = some 0 ∧ o = .next { s with unit := ⟨none, some r⟩ }

/-- The machine does not stop with a fault. -/
def NoFault (o : Host.Outcome State Fault Refusal) : Prop := ∀ f, o ≠ .fault f

end Sys2Proof.Machine
end

