-- ==== Sys2Proof/WellFormed.lean ====
section
/-! DEFINITION. Which instructions the ports can carry. -/

namespace Sys2Proof

/-- 10_state.md R27: `lim` is LIMIT_W bits wide, so a limit is below 2^LIMIT_W. A limit below 16 fits every width
the spec allows (00_scope.md R6: "any width of 4 bits or more"), which is why that test comes first. -/
def limitFits (limit : Nat) : Bool :=
  decide (limit < 16) || decide (limit < 2 ^ Config.limitWidth)

/-- The one thing the types leave open is whether a window's limit fits its port; every other field has exactly
the bits of its format. -/
def wellFormed : Instr → Bool
  | .classv _  => true
  | .classb _  => true
  | .len _     => true
  | .ident W   => limitFits W.limit
  | .dec W     => limitFits W.limit
  | .enc W _   => limitFits W.limit
  | .pos7 _    => true
  | .pos14 _   => true
  | .pos21 _   => true
  | .pos28 _   => true
  | .pos32 _ _ => true
  | .pos64 _ _ => true
  | .negR _ _  => true
  | .neg2 _    => true

end Sys2Proof
end

