-- ==== Sys2Proof/Certificates/Slice0/Obligations.lean ====
section
/-! DEFINITION. The statements for the provers. A response is written `⟨status, tag, rtag, length, value⟩`, with
`none` for a field the operation does not produce; a state after a command is written as the state before with
the fields that changed, so that each equation states the frame too. -/

open Sys2Proof Sys2Proof.Machine

/-! ## Reset and the step -/

/-- 70_reset_and_hazards.md R260 and 10_state.md R32: after reset nothing is in progress and no response is
pending; the two invariants hold. One unit and empty memory are the model's choice (log 17, log 22). -/
def Obligations.ResetIsReadyAndMeetsTheInvariants : Prop :=
  State.reset.unit = ⟨none, none⟩ ∧ State.reset.MemoryCanonical ∧ State.reset.LaunchesLegal ∧
    core.step core.reset = .next core.reset

/-- 20_memory.md R54: a step that performs the command in progress is `exec` of the instruction its ports select.
Which step that is, is the model's schedule (log 1, log 15, log 16): the next move says so, or the host
issues another command and must wait, or no move is left. -/
def Obligations.StepRunsTheDecodedCommand : Prop :=
  ∀ (s : State) (c : Command) (i : Instr), s.unit.cmd = some c → decodeCommand c = .ok i →
    (∀ ms, s.moves = .finish :: ms → step s = exec i { s with moves := ms }) ∧
    (∀ d ms, s.moves = .issue d :: ms → step s = exec i s) ∧
    (s.moves = [] → step s = exec i s)

/-- 30_encoding.md R70, R91: a table word placed for the next step is run by it, as the instruction it decodes to. Where
a program comes from is the model's choice (log 3, log 5). -/
def Obligations.StepRunsATableWordPlacedForIt : Prop :=
  ∀ (s : State) (nbits w : Nat) (i : Instr), decodeTableWord nbits w = some i →
    step (s.withFetchWord nbits w) = exec i { s.withFetchWord nbits w with moves := s.moves }

/-- 30_encoding.md R90, R91: a command without a window, issued on an idle unit, is in progress after the step. That it
clears the response given before is the model's choice (log 14). -/
def Obligations.AnIdleUnitTakesACommandWithoutAWindow : Prop :=
  ∀ (c : Command) (s : State) (ms : List Move), c.op = 0 ∨ c.op = 1 ∨ c.op = 2 → s.unit.cmd = none →
    s.moves = .issue c :: ms → step s = .next { s with unit := ⟨some c, none⟩, moves := ms }

/-- Memory keeps its canonical form in every step from every state that has it. -/
def Obligations.StepKeepsMemoryCanonical : Prop :=
  ∀ s t : State, s.MemoryCanonical → step s = .next t → t.MemoryCanonical

/-- 20_memory.md R55, 60_exceptions.md R234, R235, 70_reset_and_hazards.md R263: the commands in progress stay
legal in every step: each is one of the six on windows the host owns, and no ENC shares a byte with another. -/
def Obligations.StepKeepsLaunchesLegal : Prop :=
  ∀ s t : State, s.LaunchesLegal → step s = .next t → t.LaunchesLegal

/-- 20_memory.md R42, R44, R45: no step, from any state whatever, accesses an index at or beyond a limit, or asks for
the magnitude or the bytes of a tag that has none; either would be a fault of the model (log 21). A reset takes no
outcome from an ENC it abandons, so what it leaves is not said here but in ResetAbandonsTheCommandInProgress. -/
def Obligations.StepNeverFaults : Prop := ∀ s : State, NoFault (step s)

/-- 60_exceptions.md R232: units share no state. No step makes or loses a unit (log 17). A step that does not turn to
another unit leaves the commands and responses of the others as they are; one that does, by a switch move or
because no move is left and this unit is idle (log 1, log 16), leaves memory alone and only changes which unit stands
first: every command in progress and every response is still there. -/
def Obligations.StepLeavesOtherUnitsAlone : Prop :=
  ∀ s t : State, step s = .next t → t.others.length = s.others.length ∧
    ((∀ k ms, s.moves ≠ .switch k :: ms) → ¬ (s.moves = [] ∧ s.unit.cmd = none) → t.others = s.others) ∧
    ((∃ k ms, s.moves = .switch k :: ms) ∨ (s.moves = [] ∧ s.unit.cmd = none) →
      t.mem = s.mem ∧ t.units.Perm s.units)

/-- 60_exceptions.md R232: a switch move puts the named unit first, with its command and response, and this unit with its
own in that place, and changes nothing else; where there is no such unit it is refused. The move is the model's
(log 1, log 17). -/
def Obligations.ASwitchTurnsToTheNamedUnit : Prop :=
  ∀ (s : State) (k : Nat) (ms : List Move), s.moves = .switch k :: ms →
    (∀ u, s.others[k]? = some u →
      step s = .next { s with unit := u, others := s.others.set k s.unit, moves := ms }) ∧
    (s.others.length ≤ k → step s = .refused .noSuchUnit)

/-- 70_reset_and_hazards.md R273: on an idle unit a finish move does nothing; with no move left the machine turns to the
first other unit that has a command in progress, ports and all, and waits where no unit has one. That order is the
model's choice (log 16). -/
def Obligations.AnIdleUnitLeavesTheOthersToRunOn : Prop :=
  ∀ s : State, s.unit.cmd = none →
    (∀ ms, s.moves = .finish :: ms → step s = .next { s with moves := ms }) ∧
    (∀ k u, s.moves = [] → s.others[k]? = some u → u.cmd ≠ none →
      (∀ j v, j < k → s.others[j]? = some v → v.cmd = none) →
      step s = .next { s with unit := u, others := s.others.set k s.unit }) ∧
    (s.moves = [] → (∀ v ∈ s.others, v.cmd = none) → step s = .next s)

/-- 70_reset_and_hazards.md R273 ("Every command ends") and 30_encoding.md R95 ("Every command gets exactly one
response"): a command of the six, on a window the host owns, is performed and answered, whatever the state. -/
def Obligations.EveryCommandIsAnswered : Prop :=
  ∀ (c : Command) (i : Instr) (s : State), decodeCommand c = .ok i →
    (∀ W, c.window? = some W → windowOwned s.mem W = true) →
    ∃ t r, perform c s = .next t ∧ t.unit = ⟨none, some r⟩ ∧ t.others = s.others ∧ t.moves = s.moves

/-! ## The classifier and the length calculator -/

/-- 40_classify.md R112 and 30_encoding.md R86: a byte passes a row's mask and match test exactly when it lies in
the row's range, passes no other row's, passes some row's, and is classified as that row's tag. -/
def Obligations.LeadingBytesFallInExactlyOneClass : Prop :=
  (∀ b : Byte, ∃ row ∈ leadTable, row.matches b) ∧
  ∀ row ∈ leadTable, ∀ b : Byte,
    (row.matches b ↔ row.first ≤ b.toNat ∧ b.toNat ≤ row.last) ∧
    (row.matches b → classB b = row.tag ∧ ∀ row' ∈ leadTable, row'.matches b → row' = row)

/-- 40_classify.md R110: CLASSB answers the tag of the row whose mask and match test its byte passes; the byte is
`val[7:0]`, and the other ports are ignored. -/
def Obligations.ClassbAnswersTheClassOfItsByte : Prop :=
  ∀ row ∈ leadTable, ∀ (b : Byte) (s : State), row.matches b →
    exec (.classb b) s = .next { s with unit := ⟨none, some ⟨.ok, some row.tag, none, none, none⟩⟩ } ∧
    ∀ (val : Word) (lim : BitVec Config.limitWidth) (win : Nat), val.setWidth 8 = b → perform ⟨1, val, lim, win⟩ s = exec (.classb b) s

/-- 40_classify.md R117: CLASSV answers the tag of the row of the boundary table its value lies in, and every value
lies in one; the nested tag is that of the row. -/
def Obligations.ClassvFollowsTheBoundaryTable : Prop :=
  (∀ val : Word, ∃ row ∈ valueTable, row.lo ≤ s64 val ∧ s64 val ≤ row.hi) ∧
  ∀ row ∈ valueTable, ∀ (val : Word) (s : State), row.lo ≤ s64 val → s64 val ≤ row.hi →
    exec (.classv val) s = .next { s with unit := ⟨none, some ⟨.ok, some row.tag, none, none, none⟩⟩ } ∧
    ∀ r, row.nested = some r → posclass (neg64 val) = r

/-- 41_length.md R134: LEN answers the length of the row its value lies in; the lengths are 1 to 6, 9 and 10. -/
def Obligations.LenFollowsTheLengthTable : Prop :=
  (∀ val : Word, ∃ row ∈ valueTable, row.lo ≤ s64 val ∧ s64 val ≤ row.hi) ∧
  (∀ row ∈ valueTable, row.length ∈ [1, 2, 3, 4, 5, 6, 9, 10]) ∧
  ∀ row ∈ valueTable, ∀ (val : Word) (s : State), row.lo ≤ s64 val → s64 val ≤ row.hi →
    exec (.len val) s =
      .next { s with unit := ⟨none, some ⟨.ok, none, none, some (BitVec.ofNat 4 row.length), none⟩⟩ }

/-- 40_classify.md R119: the class of the first byte ENC writes is the class of the value, and for a NEG_R value the
class of the second is the nested tag. -/
def Obligations.ClassifiersAgreeOnWhatEncWrites : Prop :=
  ∀ (W : Window) (val : Word) (s t : State), exec (.enc W val) s = .next t → lenV val ≤ W.limit →
    (∃ b0, t.mem.read W.base = some b0 ∧ classB b0 = classV val) ∧
    (classV val = .negR → ∃ b1, t.mem.read (W.base + 1) = some b1 ∧ classB b1 = posclass (neg64 val))

/-! ## The identifier -/

/-- 42_identify.md R141: with limit 0 IDENT reports Invalid and length 0, and no byte is read, so nothing is asked of
memory. -/
def Obligations.IdentOfAnEmptyWindowIsInvalid : Prop :=
  ∀ (base : Nat) (s : State), reportsInvalid s (exec (.ident ⟨base, 0⟩) s)

/-- 42_identify.md R143, R148: for a leading byte of a fixed-width tag IDENT reports the tag and the table's
length, whatever the limit (1 or more), and no nested tag. -/
def Obligations.IdentReportsTheTableLength : Prop :=
  ∀ row ∈ leadTable, ∀ n, row.fixlen = some n → ∀ (W : Window) (s : State) (b0 : Byte),
    windowOwned s.mem W = true → 1 ≤ W.limit → s.mem.read W.base = some b0 → row.matches b0 →
    exec (.ident W) s =
      .next { s with unit := ⟨none, some ⟨.ok, some row.tag, none, some (BitVec.ofNat 4 n), none⟩⟩ }

/-- 42_identify.md R144, R147: for a NEG_R marker IDENT reports NEG_R, the tag of the byte after it (NEG_2
included), and 1 more than that tag's length, whatever the limit (2 or more). -/
def Obligations.IdentReportsTheNestedTag : Prop :=
  ∀ row ∈ leadTable, ∀ n, row.fixlen = some n → ∀ (W : Window) (s : State) (b0 b1 : Byte),
    windowOwned s.mem W = true → 2 ≤ W.limit → s.mem.read W.base = some b0 → isMarker b0 →
    s.mem.read (W.base + 1) = some b1 → row.matches b1 →
    exec (.ident W) s =
      .next { s with unit := ⟨none, some ⟨.ok, some .negR, some row.tag, some (BitVec.ofNat 4 (1 + n)), none⟩⟩ }

/-- 42_identify.md R144: a NEG_R marker that is the last byte the window allows is Invalid, for IDENT and DEC. -/
def Obligations.AMarkerAtTheLimitIsInvalid : Prop :=
  ∀ (W : Window) (s : State) (b0 : Byte), W.limit = 1 → s.mem.read W.base = some b0 → isMarker b0 →
    reportsInvalid s (exec (.ident W) s) ∧ reportsInvalid s (exec (.dec W) s)

/-- 42_identify.md R145: two NEG_R markers in a row are Invalid with length 0, for IDENT and DEC, whatever follows
and whatever the limit. -/
def Obligations.ASecondMarkerIsInvalid : Prop :=
  ∀ (W : Window) (s : State) (b0 b1 : Byte), windowOwned s.mem W = true →
    s.mem.read W.base = some b0 → isMarker b0 → s.mem.read (W.base + 1) = some b1 → isMarker b1 →
    reportsInvalid s (exec (.ident W) s) ∧ reportsInvalid s (exec (.dec W) s)

/-- 60_exceptions.md R222: IDENT reports Invalid in no case but an empty window, a marker at the limit, and a second
marker. -/
def Obligations.IdentIsInvalidInNoOtherCase : Prop :=
  ∀ (W : Window) (s t : State), exec (.ident W) s = .next t →
    t.unit.resp.map Response.status = some .invalid →
    W.limit = 0 ∨ ∃ b0, s.mem.read W.base = some b0 ∧ isMarker b0 ∧
      (W.limit = 1 ∨ ∃ b1, s.mem.read (W.base + 1) = some b1 ∧ isMarker b1)

/-- 42_identify.md R150: IDENT's answer depends on byte 0, and on byte 1 if byte 0 is a marker, and on nothing else:
from two states whose windows agree there it gives the same response. -/
def Obligations.IdentDependsOnTwoBytesAtMost : Prop :=
  ∀ (W : Window) (s s' t t' : State), exec (.ident W) s = .next t → exec (.ident W) s' = .next t' →
    s.mem.read W.base = s'.mem.read W.base →
    ((∃ b0, s.mem.read W.base = some b0 ∧ isMarker b0) →
      s.mem.read (W.base + 1) = s'.mem.read (W.base + 1)) →
    t.unit = t'.unit

/-! ## The decoder and the wire formats -/

/-- 43_decode.md R161, R162, R166: DEC is Invalid, with 0 bytes consumed, when IDENT is, or when the limit is less
than the length IDENT reports; otherwise it answers that length and some value. -/
def Obligations.DecFollowsIdent : Prop :=
  ∀ (W : Window) (s t : State) (r : Response), exec (.ident W) s = .next t → t.unit.resp = some r →
    (r.status ≠ .ok → reportsInvalid s (exec (.dec W) s)) ∧
    ∀ n, r.status = .ok → r.length = some n →
      (W.limit < n.toNat → reportsInvalid s (exec (.dec W) s)) ∧
      (n.toNat ≤ W.limit →
        ∃ v, exec (.dec W) s = .next { s with unit := ⟨none, some ⟨.ok, none, none, some n, some v⟩⟩ })

/-- 43_decode.md R163, R169: DEC of a positive tag answers the magnitude: the low bits of byte 0 the row names, then
the following bytes, most significant first. -/
def Obligations.DecAssemblesBigEndian : Prop :=
  ∀ row ∈ leadTable, row.tag ≠ .neg2 → ∀ n, row.fixlen = some n →
    ∀ (W : Window) (s : State) (b0 : Byte) (bs : List Byte),
    windowOwned s.mem W = true → n ≤ W.limit → row.matches b0 → bs.length + 1 = n →
    s.mem.holds W.base (b0 :: bs) →
    ∃ v : Word, exec (.dec W) s =
        .next { s with unit := ⟨none, some ⟨.ok, none, none, some (BitVec.ofNat 4 n), some v⟩⟩ } ∧
      u64 v = (b0.toNat % 2 ^ row.payload) * 256 ^ bs.length + beNat bs

/-- 43_decode.md R164: DEC of a NEG_2 byte answers minus its two low bits, 0xFC giving 0. -/
def Obligations.DecOfNeg2IsMinusItsLowBits : Prop :=
  ∀ (W : Window) (s : State) (b0 : Byte), windowOwned s.mem W = true → 1 ≤ W.limit →
    s.mem.read W.base = some b0 → b0 &&& 0xFC#8 = 0xFC#8 →
    ∃ v : Word, exec (.dec W) s = .next { s with unit := ⟨none, some ⟨.ok, none, none, some 1, some v⟩⟩ } ∧
      s64 v = -((b0.toNat % 4 : Nat) : Int)

/-- 43_decode.md R165, R170: DEC of a NEG_R varint answers `neg64` of what DEC answers on the window that starts one
byte later, and one more byte consumed. -/
def Obligations.DecNegatesTheNestedVarint : Prop :=
  ∀ (W : Window) (s : State) (b0 b1 : Byte) (n : BitVec 4) (v : Word),
    windowOwned s.mem W = true → 2 ≤ W.limit → s.mem.read W.base = some b0 → isMarker b0 →
    s.mem.read (W.base + 1) = some b1 → ¬ isMarker b1 →
    exec (.dec (W.sub 1)) s = .next { s with unit := ⟨none, some ⟨.ok, none, none, some n, some v⟩⟩ } →
    exec (.dec W) s = .next { s with unit := ⟨none, some ⟨.ok, none, none, some (1 + n), some (neg64 v)⟩⟩ }

/-- 43_decode.md R167 against 30_encoding.md R72 to R79: where the wire decoder reads a varint from the bytes at
the start of the window, DEC does what that varint does, and that is an answer. -/
def Obligations.DecRunsTheVarintOfTheWindow : Prop :=
  ∀ (W : Window) (s : State) (bs rest : List Byte) (i : Instr), windowOwned s.mem W = true →
    bs.length ≤ W.limit → s.mem.holds W.base bs → decodeVarint bs = .ok (i, rest) →
    exec (.dec W) s = exec i s ∧ ∃ t, exec i s = .next t

/-- 60_exceptions.md R222: where the wire decoder rejects the bytes of the window (all of them, or the first ten),
DEC reports Invalid and consumes no byte. -/
def Obligations.DecIsInvalidWhereNoVarintStands : Prop :=
  ∀ (W : Window) (s : State) (bs : List Byte) (e : DecodeError), windowOwned s.mem W = true →
    bs.length = min W.limit 10 → s.mem.holds W.base bs → decodeVarint bs = .error e →
    reportsInvalid s (exec (.dec W) s)

/-- 30_encoding.md R72 to R77: a varint of a positive tag answers its magnitude `m` and its length; the ignored bits
`x` do not matter (R83). That the answer is a DEC's is the model's reading of the row (log 4). -/
def Obligations.PositiveVarintsAnswerTheirMagnitude : Prop :=
  ∀ s : State,
    (∀ m, ∃ v, exec (.pos7 m) s = .next { s with unit := ⟨none, some ⟨.ok, none, none, some 1, some v⟩⟩ } ∧
      u64 v = m.toNat) ∧
    (∀ m, ∃ v, exec (.pos14 m) s = .next { s with unit := ⟨none, some ⟨.ok, none, none, some 2, some v⟩⟩ } ∧
      u64 v = m.toNat) ∧
    (∀ m, ∃ v, exec (.pos21 m) s = .next { s with unit := ⟨none, some ⟨.ok, none, none, some 3, some v⟩⟩ } ∧
      u64 v = m.toNat) ∧
    (∀ m, ∃ v, exec (.pos28 m) s = .next { s with unit := ⟨none, some ⟨.ok, none, none, some 4, some v⟩⟩ } ∧
      u64 v = m.toNat) ∧
    (∀ x m, ∃ v, exec (.pos32 x m) s = .next { s with unit := ⟨none, some ⟨.ok, none, none, some 5, some v⟩⟩ } ∧
      u64 v = m.toNat) ∧
    (∀ x m, exec (.pos64 x m) s = .next { s with unit := ⟨none, some ⟨.ok, none, none, some 9, some m⟩⟩ })

/-- 30_encoding.md R78, R79, 43_decode.md R165, R170: a NEG_2 varint answers minus its magnitude. A NEG_R varint
over a positive varint answers minus its magnitude up to 2^63, and 2^64 minus it, as an unsigned word, beyond;
over a NEG_2 varint it answers the magnitude. (log 4) -/
def Obligations.NegativeVarintsAnswerMinusTheirMagnitude : Prop :=
  ∀ s : State,
    (∀ m, ∃ v, exec (.neg2 m) s = .next { s with unit := ⟨none, some ⟨.ok, none, none, some 1, some v⟩⟩ } ∧
      s64 v = -(m.toNat : Int)) ∧
    ∀ (x : BitVec 2) (n : FixedVarint), ∃ v : Word,
      exec (.negR x n) s = .next { s with unit :=
        ⟨none, some ⟨.ok, none, none, some (BitVec.ofNat 4 (1 + fixlen n.tag)), some v⟩⟩ } ∧
      (n.tag = .neg2 → s64 v = n.payload) ∧
      (n.tag ≠ .neg2 → n.payload ≤ 2 ^ 63 → s64 v = -(n.payload : Int)) ∧
      (n.tag ≠ .neg2 → 2 ^ 63 < n.payload → u64 v = 2 ^ 64 - n.payload)

/-- 43_decode.md R174: a successful DEC depends on no byte at index `length` or more: on a window that holds the same
first `length` bytes it gives the same response. -/
def Obligations.DecDependsOnItsVarintOnly : Prop :=
  ∀ (W : Window) (s s' t t' : State) (n : BitVec 4) (v : Word), exec (.dec W) s = .next t →
    t.unit.resp = some ⟨.ok, none, none, some n, some v⟩ → exec (.dec W) s' = .next t' →
    (∀ i, i < n.toNat → s.mem.read (W.base + i) = s'.mem.read (W.base + i)) →
    t'.unit = t.unit

/-- 43_decode.md R175, 20_memory.md R41: IDENT and DEC never write the window, whether they succeed or fail, and
leave everything else but the unit's ports alone; so do CLASSV, CLASSB and LEN, and the wire formats as instructions by
the model's reading of them (log 4). -/
def Obligations.OnlyEncWrites : Prop :=
  ∀ (i : Instr) (s t : State), (∀ W val, i ≠ .enc W val) → exec i s = .next t →
    t.mem = s.mem ∧ t.others = s.others ∧ t.moves = s.moves

/-! ## The encoder -/

/-- 44_encode.md R193 to R196, R199: with a limit of at least the encoded length, ENC answers that length, the window
holds the canonical varint of the value, and every other byte of memory is unchanged. The zero low bits of the markers
(R83, decision D8) and the NEG_2 mapping (R194, decision D6) are the spec's own choices. -/
def Obligations.EncWritesTheCanonicalVarint : Prop :=
  ∀ (W : Window) (val : Word) (s : State), windowOwned s.mem W = true → lenV val ≤ W.limit →
    (wireBytes (canonical val)).length = lenV val ∧
    ∃ m, exec (.enc W val) s = .next { s with
        mem := m, unit := ⟨none, some ⟨.ok, none, none, some (BitVec.ofNat 4 (lenV val)), none⟩⟩ } ∧
      m.holds W.base (wireBytes (canonical val)) ∧ s.mem.sameOutside m W.base (lenV val)

/-- 44_encode.md R197: ENC fails exactly when the limit is less than the encoded length. -/
def Obligations.EncFailsExactlyWhenTheLimitIsTooSmall : Prop :=
  ∀ (W : Window) (val : Word) (s : State), windowOwned s.mem W = true →
    ∃ t r, exec (.enc W val) s = .next t ∧ t.unit = ⟨none, some r⟩ ∧
      (r.status = .insufficientSpace ↔ W.limit < lenV val) ∧ (r.status = .ok ↔ lenV val ≤ W.limit)

/-- 44_encode.md R198: after a failing ENC every byte is unchanged, except that for a NEG_R value with limit 2 or more
the byte at index 0 is either unchanged or 0xF8; with ENC_FAIL_WRITE = NONE it is unchanged, with MARKER 0xF8. -/
def Obligations.AFailingEncLeavesAtMostTheMarker : Prop :=
  ∀ (W : Window) (val : Word) (s : State), windowOwned s.mem W = true → W.limit < lenV val →
    (∃ m, exec (.enc W val) s = .next { s with
        mem := m, unit := ⟨none, some ⟨.insufficientSpace, none, none, some 0, none⟩⟩ } ∧
      s.mem.sameOutside m W.base 1 ∧
      (m.read W.base = s.mem.read W.base ∨ classV val = .negR ∧ 2 ≤ W.limit ∧ m.read W.base = some 0xF8)) ∧
    enc .none s.mem W val = .ok ⟨s.mem, none⟩ ∧
    (¬(classV val = .negR ∧ 2 ≤ W.limit) → enc .marker s.mem W val = .ok ⟨s.mem, none⟩) ∧
    (classV val = .negR → 2 ≤ W.limit → ∃ m, enc .marker s.mem W val = .ok ⟨m, none⟩ ∧
      m.read W.base = some 0xF8 ∧ s.mem.sameOutside m W.base 1)

/-- 44_encode.md R201: the most negative value is written as the ten bytes F8 F4 80 00 00 00 00 00 00 00. -/
def Obligations.EncOfTheMostNegativeValue : Prop :=
  ∀ (W : Window) (s : State), windowOwned s.mem W = true → 10 ≤ W.limit →
    ∃ t, exec (.enc W 0x8000000000000000) s = .next t ∧
      t.mem.holds W.base [0xF8, 0xF4, 0x80, 0x00, 0x00, 0x00, 0x00, 0x00, 0x00, 0x00] ∧
      t.unit.resp = some ⟨.ok, none, none, some 10, none⟩

/-- 44_encode.md R203: ENC's result depends on the value and the limit alone, and the bytes a successful ENC writes on the
value alone, whatever the two windows hold and wherever they lie. -/
def Obligations.EncNeverReadsTheWindow : Prop :=
  ∀ (W W' : Window) (val : Word) (s s' t t' : State), exec (.enc W val) s = .next t →
    exec (.enc W' val) s' = .next t' →
    (W.limit = W'.limit → t.unit = t'.unit) ∧
    (lenV val ≤ W.limit → lenV val ≤ W'.limit →
      ∀ i, i < lenV val → t.mem.read (W.base + i) = t'.mem.read (W'.base + i))

/-- 43_decode.md R173: the round trip. For every word and every window with room, DEC after ENC on the window answers
the value and its encoded length, whatever commands of other units and whatever schedule stand beside it. -/
def Obligations.DecAfterEncGivesTheValueBack : Prop :=
  ∀ (W : Window) (val : Word) (s : State), windowOwned s.mem W = true → lenV val ≤ W.limit →
    ∃ t, exec (.enc W val) s = .next t ∧
      exec (.dec W) t = .next { t with
        unit := ⟨none, some ⟨.ok, none, none, some (BitVec.ofNat 4 (lenV val)), some val⟩⟩ }

/-- 44_encode.md R200, 41_length.md R136: after a successful ENC, IDENT on the window reports the length that ENC
returned and LEN computes, the class of the value and, for a NEG_R value, the class of its magnitude. -/
def Obligations.LengthsAgree : Prop :=
  ∀ (W : Window) (val : Word) (s : State), windowOwned s.mem W = true → lenV val ≤ W.limit →
    ∃ t n, exec (.enc W val) s = .next t ∧ t.unit.resp = some ⟨.ok, none, none, some n, none⟩ ∧
      exec (.len val) t = .next { t with unit := ⟨none, some ⟨.ok, none, none, some n, none⟩⟩ } ∧
      exec (.ident W) t = .next { t with unit := ⟨none, some ⟨.ok, some (classV val),
        if classV val = .negR then some (posclass (neg64 val)) else none, some n, none⟩⟩ }

/-- 20_memory.md R51: repeating an ENC writes the same bytes again, and gives the same response. -/
def Obligations.EncIsIdempotent : Prop :=
  ∀ (W : Window) (val : Word) (s t : State), exec (.enc W val) s = .next t →
    ∃ u, exec (.enc W val) t = .next u ∧ u.unit = t.unit ∧ ∀ a, u.mem.read a = t.mem.read a

/-- 30_encoding.md R82: for every fixed-width tag and every magnitude in its range, a window that holds `put(t, m)`
has magnitude `m`, and `put(t, m)` has `fixlen(t)` bytes. -/
def Obligations.MagOfPutIsTheMagnitude : Prop :=
  ∀ (row : LeadRow) (n : Nat) (m : Word) (mem : Memory) (W : Window), row ∈ leadTable →
    row.fixlen = some n → (row.tag = .neg2 → 1 ≤ u64 m ∧ u64 m ≤ 3) →
    (row.tag ≠ .neg2 → u64 m < 2 ^ row.payload * 256 ^ (n - 1)) →
    ∃ bs, put row.tag m = .ok bs ∧ bs.length = n ∧
      (mem.holds W.base bs → n ≤ W.limit → mag mem row.tag W = .ok m)

/-! ## Encodings -/

/-- 30_encoding.md R72 to R79, R91: words written out from the tables decode to the instruction they stand for. -/
def Obligations.WordsOfTheTablesDecode : Prop :=
  decode (.bytes [0b01111111]) = .ok (.pos7 127) ∧
  decode (.bytes [0b10000001, 0b00101100]) = .ok (.pos14 300) ∧
  decode (.bytes [0b11000000, 0b01000000, 0b00000000]) = .ok (.pos21 16384) ∧
  decode (.bytes [0b11100000, 0b00100000, 0b00000000, 0b00000000]) = .ok (.pos28 2097152) ∧
  decode (.bytes [0b11110011, 0x10, 0x00, 0x00, 0x05]) = .ok (.pos32 3 0x10000005) ∧
  decode (.bytes [0b11110100, 1, 2, 3, 4, 5, 6, 7, 8]) = .ok (.pos64 0 0x0102030405060708) ∧
  decode (.bytes [0b11111000, 0b00000100]) = .ok (.negR 0 (.pos7 4)) ∧
  decode (.bytes [0b11111101]) = .ok (.neg2 1) ∧
  decode (.ports ⟨0b000, 7, limitPort 0, 0⟩) = .ok (.classv 7) ∧
  decode (.ports ⟨0b001, 0x181, limitPort 0, 0⟩) = .ok (.classb 0x81) ∧
  decode (.ports ⟨0b010, 7, limitPort 0, 0⟩) = .ok (.len 7) ∧
  decode (.ports ⟨0b011, 0, limitPort 4, 64⟩) = .ok (.ident ⟨64, 4⟩) ∧
  decode (.ports ⟨0b100, 0, limitPort 4, 64⟩) = .ok (.dec ⟨64, 4⟩) ∧
  decode (.ports ⟨0b101, 7, limitPort 4, 64⟩) = .ok (.enc ⟨64, 4⟩ 7)

/-- 30_encoding.md R70 to R91: decoding the encoding of a well-formed instruction gives it back, with every operand
and every ignored bit at every value. -/
def Obligations.DecodeOfEncodeIsTheInstruction : Prop :=
  ∀ i : Instr, wellFormed i = true → decode (encode i) = .ok i

/-- 30_encoding.md R90, 10_state.md R27: the ports carry well-formed instructions only, since `lim` has LIMIT_W bits; and
the ports carry any limit of LIMIT_W bits as it is, 0 to 15 among them whatever LIMIT_W is (00_scope.md R6). -/
def Obligations.ThePortsCarryLimitsOfTheirWidth : Prop :=
  (∀ (c : Command) (i : Instr), decodeCommand c = .ok i → wellFormed i = true) ∧
  (∀ limit, limit < 2 ^ Config.limitWidth → (limitPort limit).toNat = limit) ∧
  ∀ limit, limit < 16 → limit < 2 ^ Config.limitWidth

/-- 30_encoding.md R84, R85: a byte sequence has one reading. The bytes of the varint read from it, followed by the bytes
after it, are the sequence; and a varint followed by anything reads as that varint. -/
def Obligations.VarintBytesHaveOneReading : Prop :=
  (∀ (bs rest : List Byte) (i : Instr), decodeVarint bs = .ok (i, rest) → wireBytes i ++ rest = bs) ∧
  ∀ (i : Instr) (rest : List Byte), wireBytes i ≠ [] → decodeVarint (wireBytes i ++ rest) = .ok (i, rest)

/-- 44_encode.md R204: what ENC writes for the values at every tag transition, and the length it answers. -/
def Obligations.EncAtTheTagTransitions : Prop :=
  ∀ p ∈ ([(127, [0x7F]), (128, [0x80, 0x80]), (16383, [0xBF, 0xFF]), (16384, [0xC0, 0x40, 0x00]),
      (2097151, [0xDF, 0xFF, 0xFF]), (2097152, [0xE0, 0x20, 0x00, 0x00]),
      (268435455, [0xEF, 0xFF, 0xFF, 0xFF]), (268435456, [0xF0, 0x10, 0x00, 0x00, 0x00]),
      (4294967295, [0xF0, 0xFF, 0xFF, 0xFF, 0xFF]),
      (4294967296, [0xF4, 0x00, 0x00, 0x00, 0x01, 0x00, 0x00, 0x00, 0x00])] : List (Word × List Byte)),
    ∀ (W : Window) (s : State), windowOwned s.mem W = true → p.2.length ≤ W.limit →
      ∃ t, exec (.enc W p.1) s = .next t ∧ t.mem.holds W.base p.2 ∧
        t.unit.resp = some ⟨.ok, none, none, some (BitVec.ofNat 4 p.2.length), none⟩ ∧
        (∃ b0, p.2.head? = some b0 ∧ classB b0 = classV p.1)

/-- 30_encoding.md R92, R93 (decisions D3, D4): the codes on the ports. 10_state.md R30, R29 (decisions D13, D14): the
fields an operation does not produce, and those of a failure, as this hardware drives them; a model's claims do
not read them (log 10), and this is the one statement that names their values. -/
def Obligations.PortsCarryTheCodes : Prop :=
  [Tag.invalid, .pos7, .pos14, .pos21, .pos28, .pos32, .pos64, .neg2, .negR].map tagCode =
    [0, 1, 2, 3, 4, 5, 6, 7, 8] ∧
  [Status.ok, .invalid, .insufficientSpace].map statusCode = [0, 1, 2] ∧
  (∀ e, (Response.failure e).driven = ⟨statusCode (Response.failure e).status, 0, 0, 0, 0⟩) ∧
  (∀ t, (Response.classified t).driven = ⟨0, tagCode t, 0, 0, 0⟩) ∧
  (∀ n, (Response.measured n).driven = ⟨0, 0, 0, BitVec.ofNat 4 n, 0⟩) ∧
  (∀ t r n, (Response.identified t r n).driven =
    ⟨0, tagCode t, if t = .negR then tagCode r else 0, BitVec.ofNat 4 n, 0⟩) ∧
  ∀ v n, (Response.decoded v n).driven = ⟨0, 0, 0, BitVec.ofNat 4 n, v⟩

/-! ## Memory and the limit -/

/-- 20_memory.md R47: limits of 10 or more are alike. On windows the host owns, two commands that differ only in such
limits have the same outcome. -/
def Obligations.LimitsBeyondTenAreAlike : Prop :=
  ∀ (base l l' : Nat) (val : Word) (s : State), 10 ≤ l → 10 ≤ l' →
    windowOwned s.mem ⟨base, l⟩ = true → windowOwned s.mem ⟨base, l'⟩ = true →
    exec (.ident ⟨base, l⟩) s = exec (.ident ⟨base, l'⟩) s ∧
    exec (.dec ⟨base, l⟩) s = exec (.dec ⟨base, l'⟩) s ∧
    exec (.enc ⟨base, l⟩ val) s = exec (.enc ⟨base, l'⟩ val) s

/-- 20_memory.md R42 and 10_state.md R20: no instruction reads or writes an index at or beyond the limit, and its
response is a function of its operands and the bytes of its window alone. From two states that agree on the
window, and on nothing else, it gives the same response, and every byte outside the window is unchanged. For the wire formats
as instructions that is so by the model's reading of them (log 4). -/
def Obligations.ResponsesDependOnTheWindowAlone : Prop :=
  ∀ (i : Instr) (s s' t t' : State), exec i s = .next t → exec i s' = .next t' →
    (∀ W, windowOf i = some W → ∀ k, k < W.limit → s.mem.read (W.base + k) = s'.mem.read (W.base + k)) →
    t.unit = t'.unit ∧
    (∀ W, windowOf i = some W → s.mem.sameOutside t.mem W.base W.limit) ∧
    (windowOf i = none → t.mem = s.mem)

/-- 20_memory.md R55: commands of two units on windows that do not conflict do not affect each other. Performed in
either order they give the same responses and the same memory. -/
def Obligations.DisjointCommandsCommute : Prop :=
  ∀ (c d : Command) (s sc sd : State), s.MemoryCanonical → conflict c d = false →
    perform c s = .next sc → perform d s = .next sd →
    ∃ scd sdc, perform d sc = .next scd ∧ perform c sd = .next sdc ∧
      scd.mem = sdc.mem ∧ scd.unit = sd.unit ∧ sdc.unit = sc.unit

/-! ## Errors, refusals and reset -/

/-- 60_exceptions.md R221: CLASSV, CLASSB and LEN cannot fail, IDENT and DEC can report Invalid only, ENC can report
InsufficientSpace only. -/
def Obligations.ErrorsByOperation : Prop :=
  ∀ (s t : State) (r : Response), t.unit.resp = some r →
    (∀ val, exec (.classv val) s = .next t → r.status = .ok) ∧
    (∀ b, exec (.classb b) s = .next t → r.status = .ok) ∧
    (∀ val, exec (.len val) s = .next t → r.status = .ok) ∧
    (∀ W, exec (.ident W) s = .next t → r.status ≠ .insufficientSpace) ∧
    (∀ W, exec (.dec W) s = .next t → r.status ≠ .insufficientSpace) ∧
    (∀ W val, exec (.enc W val) s = .next t → r.status ≠ .invalid)

/-- 60_exceptions.md R224: for IDENT, DEC and ENC the status is OK exactly when the length is 1 or more. -/
def Obligations.StatusIsOkExactlyWhenLengthIsNotZero : Prop :=
  ∀ (i : Instr) (W : Window) (s t : State), windowOf i = some W → exec i s = .next t →
    ∃ r n, t.unit = ⟨none, some r⟩ ∧ r.length = some n ∧ (r.status = .ok ↔ 1 ≤ n.toNat)

/-- 30_encoding.md R94, 60_exceptions.md R234: a command with `op` 6 or 7 is refused when it is issued, and it touches
no window, so nothing is asked of memory. -/
def Obligations.ReservedOpIsRefused : Prop :=
  ∀ (c : Command) (s : State) (ms : List Move), c.op = 6 ∨ c.op = 7 → s.unit.cmd = none →
    s.moves = .issue c :: ms → step s = .refused (.reservedOp c.op)

/-- 60_exceptions.md R235, 20_memory.md R51: IDENT, DEC and ENC on a window that is not wholly the host's are refused,
when they are issued and when they are performed. -/
def Obligations.AWindowNotOwnedIsRefused : Prop :=
  ∀ (W : Window) (val : Word) (s : State), windowOwned s.mem W = false →
    exec (.ident W) s = .refused .windowNotOwned ∧ exec (.dec W) s = .refused .windowNotOwned ∧
    exec (.enc W val) s = .refused .windowNotOwned ∧
    ∀ c ms, c.window? = some W → s.unit.cmd = none → s.moves = .issue c :: ms →
      step s = .refused .windowNotOwned

/-- 20_memory.md R55: a launch in which an ENC window overlaps the window of a command in progress at another unit is
refused; every other launch of the six on an owned window is accepted, two readers of one window included. That an
accepted launch clears the response given before is the model's choice (log 14). -/
def Obligations.AnOverlapWithAnEncIsRefused : Prop :=
  ∀ (c : Command) (W : Window) (s : State) (ms : List Move), c.window? = some W →
    windowOwned s.mem W = true → s.unit.cmd = none → s.moves = .issue c :: ms →
    ((∃ d V, d ∈ inProgress s.others ∧ d.window? = some V ∧ V.overlaps W = true ∧ (c.op = 5 ∨ d.op = 5)) →
      step s = .refused .windowConflict) ∧
    ((∀ d V, d ∈ inProgress s.others → d.window? = some V → V.overlaps W = true → c.op ≠ 5 ∧ d.op ≠ 5) →
      step s = .next { s with unit := ⟨some c, none⟩, moves := ms })

/-- 20_memory.md R60: while a command is in progress, on any unit, the host is refused every write and every read of a byte
of its window; outside the windows in use it may do both. -/
def Obligations.TheHostKeepsOffWindowsInUse : Prop :=
  ∀ (s : State) (a : Nat) (b : Byte) (ms : List Move),
    ((∃ c W, c ∈ inProgress s.units ∧ c.window? = some W ∧ W.base ≤ a ∧ a < W.base + W.limit) →
      (s.moves = .poke a b :: ms → step s = .refused .hostTouchesWindow) ∧
      (s.moves = .peek a :: ms → step s = .refused .hostTouchesWindow)) ∧
    ((∀ c W, c ∈ inProgress s.units → c.window? = some W → a < W.base ∨ W.base + W.limit ≤ a) →
      (s.moves = .poke a b :: ms → step s = .next { s with mem := s.mem.write a b, moves := ms }) ∧
      (s.moves = .peek a :: ms → step s = .next { s with moves := ms }))

/-- 70_reset_and_hazards.md R260, R261, R262: a reset leaves the unit ready, with no response pending and other units
alone. The buffer is unchanged, except that after an ENC in progress each of the bytes 0 to min(limit, 10) - 1
is its old value or the one the completed ENC would have written, in any combination. -/
def Obligations.ResetAbandonsTheCommandInProgress : Prop :=
  ∀ (s : State) (landed : BitVec 10) (ms : List Move), s.moves = .reset landed :: ms →
    ∃ m, step s = .next { s with mem := m, unit := ⟨none, none⟩, moves := ms } ∧
      ((∀ c, s.unit.cmd = some c → c.op ≠ 5) → m = s.mem) ∧
      ∀ c, s.unit.cmd = some c → c.op = 5 → windowOwned s.mem ⟨c.win, c.lim.toNat⟩ = true →
        ∃ u, exec (.enc ⟨c.win, c.lim.toNat⟩ c.val) s = .next u ∧
          (∀ k, k < min c.lim.toNat 10 →
            m.read (c.win + k) = if landed.getLsbD k then u.mem.read (c.win + k) else s.mem.read (c.win + k)) ∧
          s.mem.sameOutside m c.win (min c.lim.toNat 10)
end

