-- ==== Sys2Proof/Laws/Memory.lean ====
section
/-! SUPPORT. Memory: a read after a write, the canonical form, and that memories in canonical form that read
alike are equal. -/

namespace Sys2Proof.Machine

@[simp] theorem read_nil (a : Nat) : Memory.read [] a = none := rfl

/-- A read of the byte just written gives it back (20_memory.md R51). -/
@[simp] theorem read_write_same (m : Memory) (a : Nat) (b : Byte) : (Memory.write m a b).read a = some b := by
  induction m with
  | nil => simp [Memory.write, Memory.read]
  | cons c m ih =>
    obtain ⟨k, v⟩ := c
    simp only [Memory.write]
    split
    · simp [Memory.read]
    · split
      · simp [Memory.read, *]
      · simp [Memory.read, *]

/-- A write leaves every other byte alone. -/
theorem read_write_ne {m : Memory} {a a' : Nat} {b : Byte} (h : a' ≠ a) :
    (Memory.write m a b).read a' = m.read a' := by
  induction m with
  | nil => simp [Memory.write, Memory.read, h]
  | cons c m ih =>
    obtain ⟨k, v⟩ := c
    simp only [Memory.write]
    split
    · simp [Memory.read, h]
    · split
      · subst_vars; simp [Memory.read, h]
      · simp [Memory.read, ih]

theorem read_write (m : Memory) (a a' : Nat) (b : Byte) :
    (Memory.write m a b).read a' = if a' = a then some b else m.read a' := by
  by_cases h : a' = a
  · subst h; simp
  · simp [h, read_write_ne h]

/-- A write takes no byte from the host. -/
theorem isSome_read_write {m : Memory} {a a' : Nat} {b : Byte} (h : (m.read a').isSome) :
    ((Memory.write m a b).read a').isSome := by
  rw [read_write]; split <;> simp [h]

/-- The canonical form: the first address lies below every other, and the rest is canonical. -/
theorem wf_cons {k : Nat} {v : Byte} {m : Memory} :
    Memory.wf ((k, v) :: m) = true ↔ (∀ c ∈ m, k < c.1) ∧ Memory.wf m = true := by
  induction m generalizing k v with
  | nil => simp [Memory.wf]
  | cons c m ih =>
    obtain ⟨k', v'⟩ := c
    simp only [Memory.wf, Bool.and_eq_true, decide_eq_true_eq, List.mem_cons, forall_eq_or_imp]
    constructor
    · rintro ⟨hk, hm⟩
      exact ⟨⟨hk, fun c hc => Nat.lt_trans hk ((ih.1 hm).1 c hc)⟩, hm⟩
    · rintro ⟨⟨hk, -⟩, hm⟩
      exact ⟨hk, hm⟩

theorem mem_write {m : Memory} {a : Nat} {b : Byte} {c : Host.Cell} (h : c ∈ Memory.write m a b) :
    c.1 = a ∨ c ∈ m := by
  induction m with
  | nil => simp only [Memory.write, List.mem_singleton] at h; exact .inl (by rw [h])
  | cons d m ih =>
    obtain ⟨k, v⟩ := d
    simp only [Memory.write] at h
    split at h
    · rcases List.mem_cons.1 h with h | h
      · exact .inl (by rw [h])
      · exact .inr h
    · split at h
      · rcases List.mem_cons.1 h with h | h
        · exact .inl (by rw [h]; simp [*])
        · exact .inr (List.mem_cons_of_mem _ h)
      · rcases List.mem_cons.1 h with h | h
        · exact .inr (by rw [h]; exact List.mem_cons_self)
        · exact (ih h).imp id (List.mem_cons_of_mem _)

/-- A write keeps the canonical form. -/
theorem write_wf {m : Memory} (a : Nat) (b : Byte) (h : Memory.wf m = true) :
    Memory.wf (Memory.write m a b) = true := by
  induction m with
  | nil => simp [Memory.write, Memory.wf]
  | cons c m ih =>
    obtain ⟨k, v⟩ := c
    have ⟨hk, hm⟩ := wf_cons.1 h
    simp only [Memory.write]
    split
    · rename_i hak
      refine wf_cons.2 ⟨fun d hd => ?_, h⟩
      rcases List.mem_cons.1 hd with hd | hd
      · rw [hd]; exact hak
      · exact Nat.lt_trans hak (hk d hd)
    · split
      · exact wf_cons.2 ⟨hk, hm⟩
      · refine wf_cons.2 ⟨fun d hd => ?_, ih hm⟩
        rcases mem_write hd with hd | hd
        · omega
        · exact hk d hd

/-- An address below every listed one is not listed. -/
theorem read_eq_none {m : Memory} {a : Nat} (h : ∀ c ∈ m, a < c.1) : m.read a = none := by
  induction m with
  | nil => rfl
  | cons c m ih =>
    obtain ⟨k, v⟩ := c
    have hk : a < k := h (k, v) List.mem_cons_self
    simp only [Memory.read, show a ≠ k by omega, if_false]
    exact ih fun d hd => h d (List.mem_cons_of_mem _ hd)

/-- Equal memories are equal data: two memories in canonical form that read alike are one. -/
theorem wf_ext {m m' : Memory} (h : Memory.wf m = true) (h' : Memory.wf m' = true)
    (hr : ∀ a, m.read a = m'.read a) : m = m' := by
  induction m generalizing m' with
  | nil =>
    match m' with
    | [] => rfl
    | (k, v) :: m' => simpa [Memory.read] using hr k
  | cons c m ih =>
    obtain ⟨k, v⟩ := c
    have ⟨hk, hm⟩ := wf_cons.1 h
    match m', h', hr with
    | [], _, hr => simpa [Memory.read] using hr k
    | (k', v') :: m', h', hr =>
      have ⟨hk', hm'⟩ := wf_cons.1 h'
      have below : ∀ {a}, a < k → Memory.read ((k, v) :: m) a = none := fun ha =>
        read_eq_none fun d hd => by
          rcases List.mem_cons.1 hd with hd | hd
          · rw [hd]; exact ha
          · exact Nat.lt_trans ha (hk d hd)
      have below' : ∀ {a}, a < k' → Memory.read ((k', v') :: m') a = none := fun ha =>
        read_eq_none fun d hd => by
          rcases List.mem_cons.1 hd with hd | hd
          · rw [hd]; exact ha
          · exact Nat.lt_trans ha (hk' d hd)
      have hkk : k = k' := by
        rcases Nat.lt_trichotomy k k' with hlt | heq | hgt
        · have := hr k; rw [below' hlt] at this; simp [Memory.read] at this
        · exact heq
        · have := hr k'; rw [below hgt] at this; simp [Memory.read] at this
      subst hkk
      have hv : v = v' := by simpa [Memory.read] using hr k
      subst hv
      rw [ih hm hm' fun a => ?_]
      by_cases ha : a = k
      · subst ha
        rw [read_eq_none hk, read_eq_none hk']
      · simpa [Memory.read, ha] using hr a

/-- Reset memory is canonical. -/
theorem reset_mem_wf : Memory.wf State.reset.mem = true := rfl

end Sys2Proof.Machine
end

