-- ==== Sys2Proof/Laws/Access.lean ====
section
/-! SUPPORT. What MemRead and MemWrite can do, said once: reads and writes of an owned window below its limit
succeed, give or put exactly the bytes named, and stop otherwise. -/

namespace Sys2Proof.Machine

theorem windowOwned_iff {m : Memory} {W : Window} :
    windowOwned m W = true ↔ ∀ i, i < W.limit → (m.read (W.base + i)).isSome := by
  simp [windowOwned]

@[simp] theorem sub_base (W : Window) (k : Nat) : (W.sub k).base = W.base + k := rfl
@[simp] theorem sub_limit (W : Window) (k : Nat) : (W.sub k).limit = W.limit - k := rfl

theorem windowOwned_sub {m : Memory} {W : Window} {k : Nat} (h : windowOwned m W = true) :
    windowOwned m (W.sub k) = true := by
  rw [windowOwned_iff] at *
  intro i hi
  simpa [Nat.add_assoc] using h (k + i) (by simp at hi; omega)

/-- An access at or beyond the limit never gives a byte, and one below it gives the byte of memory. -/
theorem memByte_eq_ok {m : Memory} {W : Window} {i : Nat} {b : Byte} :
    memByte m W i = .ok b ↔ i < W.limit ∧ m.read (W.base + i) = some b := by
  unfold memByte
  split
  · cases h : m.read (W.base + i) <;> simp [*]
  · simp [*]

theorem memByte_of_read {m : Memory} {W : Window} {i : Nat} {b : Byte} (hi : i < W.limit)
    (h : m.read (W.base + i) = some b) : memByte m W i = .ok b :=
  memByte_eq_ok.2 ⟨hi, h⟩

theorem memByte_owned {m : Memory} {W : Window} (h : windowOwned m W = true) {i : Nat} (hi : i < W.limit) :
    ∃ b, memByte m W i = .ok b := by
  obtain ⟨b, hb⟩ := Option.isSome_iff_exists.1 (windowOwned_iff.1 h i hi)
  exact ⟨b, memByte_of_read hi hb⟩

/-- `window(W, k)` is the same memory, `k` bytes on (00_scope.md R10). -/
theorem memByte_sub (m : Memory) (W : Window) (k i : Nat) : memByte m (W.sub k) i = memByte m W (k + i) := by
  simp only [memByte, sub_base, sub_limit, Nat.add_assoc]
  by_cases h : k + i < W.limit
  · rw [if_pos h, if_pos (by omega)]
  · rw [if_neg h, if_neg (by omega)]

theorem memRead_succ (m : Memory) (W : Window) (a n : Nat) {hi : Nat} {lo : Byte} (h : memRead m W a n = .ok hi)
    (h' : memByte m W (a + n) = .ok lo) : memRead m W a (n + 1) = .ok (hi * 256 + lo.toNat) := by
  simp [memRead, h, h']

/-- 20_memory.md R44: `MemRead(W, a, 1)` is the byte `W[a]`. -/
theorem memRead_one (m : Memory) (W : Window) (a : Nat) :
    memRead m W a 1 = (memByte m W a).map BitVec.toNat := by
  cases h : memByte m W a <;> simp [memRead, h, Except.map]

/-- 20_memory.md R44: what MemRead reads, big-endian. -/
theorem memRead_of_holds {m : Memory} {W : Window} {a : Nat} {bs : List Byte} (hl : a + bs.length ≤ W.limit)
    (h : Memory.holds m (W.base + a) bs) : memRead m W a bs.length = .ok (beNat bs) := by
  induction bs using List.reverseRecOn with
  | nil => rfl
  | append_singleton bs b ih =>
    simp only [List.length_append, List.length_singleton] at hl ⊢
    have hlast : m.read (W.base + a + bs.length) = some b := by
      have := h bs.length (by simp)
      simpa using this
    rw [memRead_succ m W a bs.length (ih (by omega) fun i hi => ?_)
      (memByte_of_read (by omega) (by rw [← Nat.add_assoc]; exact hlast))]
    · simp [beNat]
    · have := h i (by simp; omega)
      rwa [List.getElem?_append_left hi] at this

/-- A multi-byte write of one byte is that byte's write (20_memory.md R48). -/
theorem memWrite_one (m : Memory) (W : Window) (i : Nat) (b : Byte) :
    memWrite m W i 1 b.toNat = memSet m W i b := by
  simp only [memWrite]
  cases h : memSet m W i (BitVec.ofNat 8 (b.toNat / 2 ^ (8 * 0))) <;> simp_all

theorem memSet_eq_ok {m m' : Memory} {W : Window} {i : Nat} {b : Byte} :
    memSet m W i b = .ok m' ↔
      i < W.limit ∧ (m.read (W.base + i)).isSome ∧ m' = m.write (W.base + i) b := by
  unfold memSet
  split
  · cases h : m.read (W.base + i) <;> simp [*, eq_comm]
  · simp [*]

/-- Writing bytes of an owned window below its limit succeeds and puts them at rising addresses. -/
theorem writeBytes_owned {m : Memory} {W : Window} {a : Nat} {bs : List Byte} (ho : windowOwned m W = true)
    (hl : a + bs.length ≤ W.limit) : writeBytes m W a bs = .ok (placeBytes m (W.base + a) bs) := by
  induction bs generalizing m a with
  | nil => rfl
  | cons b bs ih =>
    simp only [List.length_cons] at hl
    have hset : memSet m W a b = .ok (m.write (W.base + a) b) :=
      memSet_eq_ok.2 ⟨by omega, windowOwned_iff.1 ho a (by omega), rfl⟩
    simp only [writeBytes, memWrite_one, hset, placeBytes]
    refine ih (windowOwned_iff.2 fun i hi => isSome_read_write (windowOwned_iff.1 ho i hi)) (by omega)

/-- All that placing bytes does: those addresses read as the bytes, every other reads as before. -/
theorem read_placeBytes (m : Memory) (a : Nat) (bs : List Byte) (x : Nat) :
    (placeBytes m a bs).read x = if a ≤ x ∧ x < a + bs.length then bs[x - a]? else m.read x := by
  induction bs generalizing m a with
  | nil => simp [placeBytes]
  | cons b bs ih =>
    simp only [placeBytes, ih, List.length_cons, read_write]
    rcases Nat.lt_trichotomy x a with h | h | h
    · rw [if_neg (by omega), if_neg (by omega), if_neg (by omega)]
    · subst h; simp
    · by_cases h' : x < a + (bs.length + 1)
      · rw [if_pos (by omega), if_pos (by omega), show x - a = (x - (a + 1)) + 1 by omega]
        simp
      · rw [if_neg (by omega), if_neg (by omega), if_neg (by omega)]

theorem placeBytes_wf {m : Memory} (a : Nat) (bs : List Byte) (h : Memory.wf m = true) :
    Memory.wf (placeBytes m a bs) = true := by
  induction bs generalizing m a with
  | nil => exact h
  | cons b bs ih => exact ih _ (write_wf _ _ h)

theorem placeBytes_holds (m : Memory) (a : Nat) (bs : List Byte) : Memory.holds (placeBytes m a bs) a bs := by
  intro i hi
  rw [read_placeBytes, if_pos (by omega)]
  simp

theorem placeBytes_sameOutside (m : Memory) (a : Nat) (bs : List Byte) :
    Memory.sameOutside m (placeBytes m a bs) a bs.length := by
  intro x hx
  rw [read_placeBytes, if_neg (by omega)]

/-- Placing bytes takes none from the host. -/
theorem windowOwned_placeBytes {m : Memory} {W : Window} (a : Nat) (bs : List Byte) (h : windowOwned m W = true) :
    windowOwned (placeBytes m a bs) W = true := by
  induction bs generalizing m a with
  | nil => exact h
  | cons b bs ih =>
    exact ih _ (windowOwned_iff.2 fun i hi => isSome_read_write (windowOwned_iff.1 h i hi))

end Sys2Proof.Machine
end

