-- ==== Sys2Proof/Laws/State.lean ====
section
/-! SUPPORT. One lemma per field per update of the state, all true by unfolding. -/

namespace Sys2Proof.Machine

variable (s : State) (r : Response) (e : Raised)

@[simp] theorem respond_mem : (s.respond r).mem = s.mem := rfl
@[simp] theorem respond_unit : (s.respond r).unit = ⟨none, some r⟩ := rfl
@[simp] theorem respond_others : (s.respond r).others = s.others := rfl
@[simp] theorem respond_moves : (s.respond r).moves = s.moves := rfl

@[simp] theorem raise_mem : (s.raise e).mem = s.mem := rfl
@[simp] theorem raise_unit : (s.raise e).unit = ⟨none, some (Response.failure e)⟩ := rfl
@[simp] theorem raise_others : (s.raise e).others = s.others := rfl
@[simp] theorem raise_moves : (s.raise e).moves = s.moves := rfl

@[simp] theorem reset_mem : State.reset.mem = [] := rfl
@[simp] theorem reset_unit : State.reset.unit = UnitPorts.idle := rfl
@[simp] theorem reset_others : State.reset.others = [] := rfl
@[simp] theorem reset_moves : State.reset.moves = [] := rfl

@[simp] theorem conclude_ok : s.conclude (.ok r) = .next (s.respond r) := rfl
@[simp] theorem conclude_raise : s.conclude (.error (.raise e)) = .next (s.raise e) := rfl
@[simp] theorem conclude_fault (f : Fault) : s.conclude (.error (.fault f)) = .fault f := rfl
@[simp] theorem conclude_refused (q : Refusal) : s.conclude (.error (.refused q)) = .refused q := rfl

/-- `raise Invalid` reports Invalid. -/
theorem reportsInvalid_raise : reportsInvalid s (.next (s.raise .invalid)) := ⟨_, rfl, rfl, rfl⟩

/-- All a command that leaves the buffer alone can do: give one response, and nothing else. -/
theorem conclude_next {s t : State} {x : Except Exit Response} (h : s.conclude x = .next t) :
    ∃ q, t = s.respond q ∧ (x = .ok q ∨ ∃ k, x = .error (.raise k) ∧ q = Response.failure k) := by
  match x, h with
  | .ok q, h => exact ⟨q, by simpa using h.symm, .inl rfl⟩
  | .error (.raise k), h => exact ⟨Response.failure k, by simpa [State.raise] using h.symm, .inr ⟨k, rfl, rfl⟩⟩

/-- All an ENC can do to the state, given what `enc` answered. -/
theorem concludeEnc_next {s t : State} {x : Except Exit EncResult} (h : s.concludeEnc x = .next t) :
    (∃ m n, x = .ok ⟨m, some n⟩ ∧ t = State.respond { s with mem := m } (Response.measured n)) ∨
    (∃ m, x = .ok ⟨m, none⟩ ∧ t = State.raise { s with mem := m } .insufficientSpace) ∨
    (∃ k, x = .error (.raise k) ∧ t = s.raise k) := by
  match x, h with
  | .ok ⟨m, some n⟩, h => exact .inl ⟨m, n, rfl, by simpa [State.concludeEnc] using h.symm⟩
  | .ok ⟨m, none⟩, h => exact .inr (.inl ⟨m, rfl, by simpa [State.concludeEnc] using h.symm⟩)
  | .error (.raise k), h => exact .inr (.inr ⟨k, rfl, by simpa [State.concludeEnc] using h.symm⟩)

end Sys2Proof.Machine
end

