-- ==== Sys2Proof/Laws/Values.lean ====
section
/-! SUPPORT. Values, magnitudes, tags and lengths as numbers. -/

namespace Sys2Proof.Machine

/-- A limit on its port of LIMIT_W bits. -/
@[simp] theorem toNat_limitPort (limit : Nat) : (limitPort limit).toNat = limit % 2 ^ Config.limitWidth := by
  unfold limitPort
  split
  · rename_i h; simp [Nat.mod_eq_of_lt (lt_two_pow_limitWidth h)]
  · simp

/-- `neg64` is the two's complement negation of the word. -/
theorem neg64_eq_neg (w : Word) : neg64 w = -w := rfl

@[simp] theorem neg64_neg64 (w : Word) : neg64 (neg64 w) = w := by simp [neg64_eq_neg]

/-- 00_scope.md R8: the magnitude of a negative value, the most negative one included. -/
theorem u64_neg64_of_neg {w : Word} (h : s64 w < 0) : (u64 (neg64 w) : Int) = -s64 w := by
  simp only [neg64_eq_neg, u64, s64, BitVec.toInt_eq_toNat_cond, BitVec.toNat_neg] at *
  have := w.isLt
  split at * <;> omega

theorem s64_of_nonneg {w : Word} (h : 0 ≤ s64 w) : (u64 w : Int) = s64 w := by
  simp only [u64, s64, BitVec.toInt_eq_toNat_cond] at *
  have := w.isLt
  split at * <;> omega

/-- The range of a value. -/
theorem s64_bounds (w : Word) : -2 ^ 63 ≤ s64 w ∧ s64 w < 2 ^ 63 := by
  simp only [s64, BitVec.toInt_eq_toNat_cond]
  have := w.isLt
  split <;> omega

/-- 40_classify.md R115: `posclass` is a positive tag. -/
theorem posclass_cases (m : Word) :
    posclass m = .pos7 ∨ posclass m = .pos14 ∨ posclass m = .pos21 ∨ posclass m = .pos28 ∨
      posclass m = .pos32 ∨ posclass m = .pos64 := by
  unfold posclass; split_ifs <;> simp

theorem posclass_ne_negR (m : Word) : posclass m ≠ .negR := by
  unfold posclass; split_ifs <;> simp

theorem posclass_ne_neg2 (m : Word) : posclass m ≠ .neg2 := by
  unfold posclass; split_ifs <;> simp

theorem posclass_ne_invalid (m : Word) : posclass m ≠ .invalid := by
  unfold posclass; split_ifs <;> simp

/-- 40_classify.md R118: no value is INVALID. -/
theorem classV_ne_invalid (val : Word) : classV val ≠ .invalid := by
  unfold classV; split_ifs <;> simp [posclass_ne_invalid]

theorem classV_eq_negR {val : Word} : classV val = .negR ↔ s64 val ≤ -4 := by
  unfold classV; split_ifs <;> simp [posclass_ne_negR] <;> omega

theorem classV_eq_neg2 {val : Word} : classV val = .neg2 ↔ -3 ≤ s64 val ∧ s64 val ≤ -1 := by
  unfold classV; split_ifs <;> simp [posclass_ne_neg2] <;> omega

theorem classV_of_nonneg {val : Word} (h : 0 ≤ s64 val) : classV val = posclass val := by
  unfold classV; rw [if_neg (by omega), if_neg (by omega)]

/-- 30_encoding.md R84, R71: a fixed-width varint has 1 to 9 bytes. -/
theorem fixlen_posclass_bounds (m : Word) : 1 ≤ fixlen (posclass m) ∧ fixlen (posclass m) ≤ 9 := by
  rcases posclass_cases m with h | h | h | h | h | h <;> simp [h, fixlen]

/-- The fixed-width tags have lengths 1 to 9 (30_encoding.md R84). -/
theorem fixlen_bounds {t : Tag} (h : t ≠ .negR) (h' : t ≠ .invalid) : 1 ≤ fixlen t ∧ fixlen t ≤ 9 := by
  cases t <;> simp_all [fixlen]

/-- 41_length.md R134: the longest encoding has 10 bytes, and none has 0 (R133). -/
theorem lenV_bounds (val : Word) : 1 ≤ lenV val ∧ lenV val ≤ 10 := by
  unfold lenV
  split_ifs with h
  · have := fixlen_posclass_bounds (neg64 val); omega
  · have := fixlen_bounds h (classV_ne_invalid val); omega

/-- 30_encoding.md R86: the ranges of the classes. -/
theorem classB_range : ∀ b : Byte,
    (classB b = .pos7 ↔ b.toNat ≤ 127) ∧ (classB b = .pos14 ↔ 128 ≤ b.toNat ∧ b.toNat ≤ 191) ∧
    (classB b = .pos21 ↔ 192 ≤ b.toNat ∧ b.toNat ≤ 223) ∧ (classB b = .pos28 ↔ 224 ≤ b.toNat ∧ b.toNat ≤ 239) ∧
    (classB b = .pos32 ↔ 240 ≤ b.toNat ∧ b.toNat ≤ 243) ∧ (classB b = .pos64 ↔ 244 ≤ b.toNat ∧ b.toNat ≤ 247) ∧
    (classB b = .negR ↔ 248 ≤ b.toNat ∧ b.toNat ≤ 251) ∧ (classB b = .neg2 ↔ 252 ≤ b.toNat) := by decide

/-- 30_encoding.md R83: the markers are the bytes classified as NEG_R. -/
theorem isMarker_iff (b : Byte) : isMarker b ↔ classB b = .negR := by
  unfold isMarker; revert b; decide

/-- 40_classify.md R118: no leading byte is INVALID. -/
theorem classB_ne_invalid : ∀ b : Byte, classB b ≠ .invalid := by decide

@[simp] theorem length_encodeFixed (v : FixedVarint) : (encodeFixed v).length = fixlen v.tag := by
  cases v <;> rfl

theorem tag_ne_negR (v : FixedVarint) : v.tag ≠ .negR := by cases v <;> simp [FixedVarint.tag]

theorem tag_ne_invalid (v : FixedVarint) : v.tag ≠ .invalid := by cases v <;> simp [FixedVarint.tag]

/-- The tag of the narrowest varint of a magnitude is the narrowest tag (40_classify.md R116). -/
theorem tag_narrowest (m : Word) : (narrowest m).tag = posclass m := by
  unfold narrowest posclass; split_ifs <;> rfl

/-- The bytes of a varint as an instruction of its own are its bytes. -/
@[simp] theorem wireBytes_ofFixed (v : FixedVarint) : wireBytes (.ofFixed v) = encodeFixed v := by cases v <;> rfl

@[simp] theorem wireBytes_negR (x : BitVec 2) (n : FixedVarint) :
    wireBytes (.negR x n) = markerByte x :: encodeFixed n := rfl

end Sys2Proof.Machine
end

