-- ==== Sys2Proof/Laws/Commands.lean ====
section
/-! SUPPORT. One lemma for each function the commands share: everything `ident`, `mag`, `put`, `decFixed`, `dec` and
`enc` can answer. -/

namespace Sys2Proof.Machine

/-- A successful `ident` read byte 0, and byte 1 under a NEG_R marker, and answers their classes. -/
theorem ident_ok {m : Memory} {W : Window} {i : Identified} (h : ident m W = .ok i) :
    ∃ b0, 1 ≤ W.limit ∧ m.read W.base = some b0 ∧
      ((classB b0 ≠ .negR ∧ i = ⟨classB b0, .invalid, fixlen (classB b0)⟩) ∨
       (classB b0 = .negR ∧ 2 ≤ W.limit ∧ ∃ b1, m.read (W.base + 1) = some b1 ∧ classB b1 ≠ .negR ∧
          i = ⟨.negR, classB b1, 1 + fixlen (classB b1)⟩)) := by
  unfold ident at h
  split at h
  · cases h
  · rename_i hl
    split at h
    · cases h
    · rename_i b0 hb0
      have hr0 := (memByte_eq_ok.1 hb0).2
      refine ⟨b0, by omega, by simpa using hr0, ?_⟩
      rw [if_neg (classB_ne_invalid b0)] at h
      split at h
      · rename_i hc
        exact .inl ⟨hc, by cases h; rfl⟩
      · rename_i hc
        split at h
        · cases h
        · split at h
          · cases h
          · rename_i b1 hb1
            have hr1 := (memByte_eq_ok.1 hb1).2
            rw [if_neg (classB_ne_invalid b1)] at h
            split at h
            · cases h
            · rename_i hc1
              exact .inr ⟨not_not.1 hc, by omega, b1, hr1, hc1, by cases h; rfl⟩

/-- On a window the host owns `ident` answers or raises Invalid, and Invalid has one of its causes
(60_exceptions.md R222). -/
theorem ident_owned {m : Memory} {W : Window} (ho : windowOwned m W = true) :
    (∃ i, ident m W = .ok i) ∨ (ident m W = .error (.raise .invalid) ∧
      (W.limit = 0 ∨ ∃ b0, m.read W.base = some b0 ∧ classB b0 = .negR ∧
        (W.limit = 1 ∨ ∃ b1, m.read (W.base + 1) = some b1 ∧ classB b1 = .negR))) := by
  unfold ident
  by_cases hl : W.limit = 0
  · simp [hl]
  · obtain ⟨b0, hb0⟩ := memByte_owned ho (i := 0) (by omega)
    have hr0 : m.read W.base = some b0 := (memByte_eq_ok.1 hb0).2
    by_cases hc : classB b0 = .negR
    · by_cases hl1 : W.limit = 1
      · exact .inr ⟨by simp [hb0, hc, hl1], .inr ⟨b0, hr0, hc, .inl hl1⟩⟩
      · obtain ⟨b1, hb1⟩ := memByte_owned ho (i := 1) (by omega)
        by_cases hc1 : classB b1 = .negR
        · exact .inr ⟨by simp [hb0, hc, hb1, hc1, hl],
            .inr ⟨b0, hr0, hc, .inr ⟨b1, (memByte_eq_ok.1 hb1).2, hc1⟩⟩⟩
        · exact .inl ⟨_, by simp [hl, show W.limit - 1 ≠ 0 by omega, hb0, hc, hb1, hc1, classB_ne_invalid b1]; rfl⟩
    · exact .inl ⟨_, by simp [hl, hb0, hc, classB_ne_invalid b0]; rfl⟩

/-- Whatever the window, `ident` never stops with a fault. -/
theorem ident_no_fault (m : Memory) (W : Window) (f : Fault) : ident m W ≠ .error (.fault f) := by
  have byte : ∀ i, i < W.limit → ∀ e, memByte m W i = .error e → e = .refused .windowNotOwned := by
    intro i hi e h
    unfold memByte at h
    rw [if_pos hi] at h
    split at h <;> simp_all
  intro h
  unfold ident at h
  split at h
  · simp at h
  · split at h
    · rename_i e he
      have := byte 0 (by omega) e he
      simp_all
    · split at h
      · simp at h
      · split at h
        · simp at h
        · split at h
          · simp at h
          · split at h
            · rename_i e he
              have := byte 1 (by omega) e he
              simp_all
            · split at h
              · simp at h
              · split at h <;> simp at h

/-- A read of memory that holds bytes gives them. -/
theorem holds_head {m : Memory} {a : Nat} {b : Byte} {bs : List Byte} (h : Memory.holds m a (b :: bs)) :
    m.read a = some b := by simpa using h 0 (by simp)

theorem holds_tail {m : Memory} {a : Nat} {b : Byte} {bs : List Byte} (h : Memory.holds m a (b :: bs)) :
    Memory.holds m (a + 1) bs := by
  intro i hi
  have := h (i + 1) (by simp; omega)
  simpa [Nat.add_assoc, Nat.add_comm 1 i] using this

theorem holds_append_left {m : Memory} {a : Nat} {bs cs : List Byte} (h : Memory.holds m a (bs ++ cs)) :
    Memory.holds m a bs := by
  intro i hi
  have := h i (by simp; omega)
  rwa [List.getElem?_append_left hi] at this

/-- An owned window holds some bytes in any part below its limit. -/
theorem exists_holds {m : Memory} {W : Window} (ho : windowOwned m W = true) (a n : Nat) (hl : a + n ≤ W.limit) :
    ∃ bs : List Byte, bs.length = n ∧ Memory.holds m (W.base + a) bs := by
  induction n generalizing a with
  | zero => exact ⟨[], rfl, fun i hi => by simp at hi⟩
  | succ n ih =>
    obtain ⟨bs, hn, hb⟩ := ih (a + 1) (by omega)
    obtain ⟨b, hb0⟩ := Option.isSome_iff_exists.1 (windowOwned_iff.1 ho a (by omega))
    refine ⟨b :: bs, by simp [hn], fun i hi => ?_⟩
    cases i with
    | zero => simpa using hb0
    | succ i =>
      have := hb i (by simpa using hi)
      simpa [Nat.add_assoc, Nat.add_comm 1 i] using this

/-- The masks of 30_encoding.md R81 keep the low bits of byte 0. -/
theorem low_bits (b : Byte) :
    (b &&& 0x7F#8).toNat = b.toNat % 2 ^ 7 ∧ (b &&& 0x3F#8).toNat = b.toNat % 2 ^ 6 ∧
    (b &&& 0x1F#8).toNat = b.toNat % 2 ^ 5 ∧ (b &&& 0x0F#8).toNat = b.toNat % 2 ^ 4 ∧
    (b &&& 0x03#8).toNat = b.toNat % 2 ^ 2 := by
  revert b; decide

/-- 30_encoding.md R81: the magnitude of each fixed-width tag as a number, from byte 0 and the bytes after it. -/
def magNat (t : Tag) (b0 : Byte) (bs : List Byte) : Nat :=
  match t with
  | .pos7  => b0.toNat % 2 ^ 7
  | .pos14 => (b0.toNat % 2 ^ 6) * 2 ^ 8 + beNat bs
  | .pos21 => (b0.toNat % 2 ^ 5) * 2 ^ 16 + beNat bs
  | .pos28 => (b0.toNat % 2 ^ 4) * 2 ^ 24 + beNat bs
  | .pos32 => beNat bs
  | .pos64 => beNat bs
  | .neg2  => b0.toNat % 2 ^ 2
  | .negR => 0
  | .invalid => 0

theorem setWidth_eq_ofNat {w : Nat} (x : BitVec w) : x.setWidth 64 = BitVec.ofNat 64 x.toNat := by
  apply BitVec.eq_of_toNat_eq; simp

/-- All that `mag` does for a fixed-width tag whose bytes lie below the limit. -/
theorem mag_of_holds {m : Memory} {W : Window} {t : Tag} {b0 : Byte} {bs : List Byte} (ht : t ≠ .negR)
    (ht' : t ≠ .invalid) (hn : bs.length + 1 = fixlen t) (hl : fixlen t ≤ W.limit)
    (h : Memory.holds m W.base (b0 :: bs)) : mag m t W = .ok (BitVec.ofNat 64 (magNat t b0 bs)) := by
  have h0 : memByte m W 0 = .ok b0 := memByte_of_read (by omega) (by simpa using holds_head h)
  have hr : memRead m W 1 bs.length = .ok (beNat bs) := memRead_of_holds (by omega) (holds_tail h)
  obtain ⟨l7, l6, l5, l4, l2⟩ := low_bits b0
  cases t <;> simp only [mag, h0, bind, Except.bind, pure, Except.pure, magNat]
  case negR => exact absurd rfl ht
  case invalid => exact absurd rfl ht'
  case pos7 => rw [setWidth_eq_ofNat, l7]
  case neg2 => rw [setWidth_eq_ofNat, l2]
  case pos14 => rw [show bs.length = 1 by simpa [fixlen] using hn] at hr; simp only [hr, l6]
  case pos21 => rw [show bs.length = 2 by simpa [fixlen] using hn] at hr; simp only [hr, l5]
  case pos28 => rw [show bs.length = 3 by simpa [fixlen] using hn] at hr; simp only [hr, l4]
  case pos32 => rw [show bs.length = 4 by simpa [fixlen] using hn] at hr; simp only [hr]
  case pos64 => rw [show bs.length = 8 by simpa [fixlen] using hn] at hr; simp only [hr]

/-- 43_decode.md R167: `dec_fixed`, from byte 0 and the bytes after it. -/
def decFixedOfBytes (t : Tag) (b0 : Byte) (bs : List Byte) : Word :=
  if t = .neg2 then neg64 (BitVec.ofNat 64 (magNat .neg2 b0 bs)) else BitVec.ofNat 64 (magNat t b0 bs)

/-- All that `decFixed` does for a fixed-width tag whose bytes lie below the limit. -/
theorem decFixed_of_holds {m : Memory} {W : Window} {t : Tag} {b0 : Byte} {bs : List Byte} (ht : t ≠ .negR)
    (ht' : t ≠ .invalid) (hn : bs.length + 1 = fixlen t) (hl : fixlen t ≤ W.limit)
    (h : Memory.holds m W.base (b0 :: bs)) : decFixed m t W = .ok (decFixedOfBytes t b0 bs) := by
  unfold decFixed decFixedOfBytes
  split
  · rename_i h2
    subst h2
    rw [mag_of_holds ht ht' hn hl h]; rfl
  · exact mag_of_holds ht ht' hn hl h

/-- What `dec` does where a fixed-width varint stands whole below the limit. -/
theorem dec_fixed_ok {m : Memory} {W : Window} {b0 : Byte} {bs : List Byte} (hc : classB b0 ≠ .negR)
    (hn : bs.length + 1 = fixlen (classB b0)) (hl : fixlen (classB b0) ≤ W.limit)
    (h : Memory.holds m W.base (b0 :: bs)) :
    dec m W = .ok ⟨decFixedOfBytes (classB b0) b0 bs, fixlen (classB b0)⟩ := by
  have hb := fixlen_bounds hc (classB_ne_invalid b0)
  have h0 := memByte_of_read (W := W) (i := 0) (by omega) (by simpa using holds_head h)
  have hi : ident m W = .ok ⟨classB b0, .invalid, fixlen (classB b0)⟩ := by
    simp [ident, h0, hc, classB_ne_invalid b0, show W.limit ≠ 0 by omega]
  simp [dec, hi, hc, show ¬ W.limit < fixlen (classB b0) by omega,
    decFixed_of_holds hc (classB_ne_invalid b0) hn hl h, Except.map]

/-- What `dec` does where a NEG_R varint stands whole below the limit. -/
theorem dec_neg_ok {m : Memory} {W : Window} {b0 b1 : Byte} {bs : List Byte} (hc : classB b0 = .negR)
    (hc1 : classB b1 ≠ .negR)
    (hn : bs.length + 1 = fixlen (classB b1)) (hl : 1 + fixlen (classB b1) ≤ W.limit)
    (h : Memory.holds m W.base (b0 :: b1 :: bs)) :
    dec m W = .ok ⟨neg64 (decFixedOfBytes (classB b1) b1 bs), 1 + fixlen (classB b1)⟩ := by
  have hb := fixlen_bounds hc1 (classB_ne_invalid b1)
  have h0 := memByte_of_read (W := W) (i := 0) (by omega) (by simpa using holds_head h)
  have h1 := memByte_of_read (W := W) (i := 1) (by omega) (by simpa using holds_head (holds_tail h))
  have hi : ident m W = .ok ⟨.negR, classB b1, 1 + fixlen (classB b1)⟩ := by
    simp [ident, h0, h1, hc, hc1, classB_ne_invalid b1, show W.limit ≠ 0 by omega, show W.limit - 1 ≠ 0 by omega]
  simp [dec, hi, show ¬ W.limit < 1 + fixlen (classB b1) by omega,
    decFixed_of_holds (W := W.sub 1) hc1 (classB_ne_invalid b1) hn (by simp; omega) (holds_tail h), Except.map]

/-- All that `dec` does on a window the host owns: Invalid because `ident` is, Invalid because the window is too
short, or the word of the fixed-width or of the NEG_R varint that stands there. -/
theorem dec_owned {m : Memory} {W : Window} (ho : windowOwned m W = true) :
    (ident m W = .error (.raise .invalid) ∧ dec m W = .error (.raise .invalid)) ∨
    (∃ i, ident m W = .ok i ∧ W.limit < i.length ∧ dec m W = .error (.raise .invalid)) ∨
    (∃ b0 bs, classB b0 ≠ .negR ∧ bs.length + 1 = fixlen (classB b0) ∧ fixlen (classB b0) ≤ W.limit ∧
       Memory.holds m W.base (b0 :: bs) ∧ ident m W = .ok ⟨classB b0, .invalid, fixlen (classB b0)⟩ ∧
       dec m W = .ok ⟨decFixedOfBytes (classB b0) b0 bs, fixlen (classB b0)⟩) ∨
    (∃ b0 b1 bs, classB b0 = .negR ∧ classB b1 ≠ .negR ∧ bs.length + 1 = fixlen (classB b1) ∧
       1 + fixlen (classB b1) ≤ W.limit ∧
       Memory.holds m W.base (b0 :: b1 :: bs) ∧ ident m W = .ok ⟨.negR, classB b1, 1 + fixlen (classB b1)⟩ ∧
       dec m W = .ok ⟨neg64 (decFixedOfBytes (classB b1) b1 bs), 1 + fixlen (classB b1)⟩) := by
  rcases ident_owned ho with ⟨i, hi⟩ | ⟨hi, -⟩
  · by_cases hl : W.limit < i.length
    · exact .inr (.inl ⟨i, hi, hl, by simp [dec, hi, hl]⟩)
    · obtain ⟨b0, hl0, hr0, h | h⟩ := ident_ok hi
      · obtain ⟨hc, rfl⟩ := h
        simp only at hl
        have hb := fixlen_bounds hc (classB_ne_invalid b0)
        obtain ⟨bs, hbl, hbh⟩ := exists_holds ho 0 (fixlen (classB b0)) (by omega)
        match bs, hbl, hbh with
        | [], hbl, _ => simp at hbl; omega
        | b :: bs, hbl, hbh =>
          have hbh : Memory.holds m W.base (b :: bs) := hbh
          have : b = b0 := by have := holds_head hbh; rw [hr0] at this; simpa using this.symm
          subst this
          exact .inr (.inr (.inl ⟨b, bs, hc, by simpa using hbl, by omega, hbh, hi,
            dec_fixed_ok hc (by simpa using hbl) (by omega) hbh⟩))
      · obtain ⟨hc, hl2, b1, hr1, hc1, rfl⟩ := h
        simp only at hl
        have hb := fixlen_bounds hc1 (classB_ne_invalid b1)
        obtain ⟨bs, hbl, hbh⟩ := exists_holds ho 0 (1 + fixlen (classB b1)) (by omega)
        match bs, hbl, hbh with
        | [], hbl, _ => simp at hbl; omega
        | [_], hbl, _ => simp at hbl; omega
        | b :: b' :: bs, hbl, hbh =>
          have hbh : Memory.holds m W.base (b :: b' :: bs) := hbh
          have : b = b0 := by have := holds_head hbh; rw [hr0] at this; simpa using this.symm
          subst this
          have : b' = b1 := by have := holds_head (holds_tail hbh); rw [hr1] at this; simpa using this.symm
          subst this
          exact .inr (.inr (.inr ⟨b, b', bs, hc, hc1, by simp at hbl; omega, by omega, hbh, hi,
            dec_neg_ok hc hc1 (by simp at hbl; omega) (by omega) hbh⟩))
  · exact .inl ⟨hi, by simp [dec, hi]⟩

/-- A length on its port of four bits is that length. -/
theorem toNat_len {n : Nat} (h : n ≤ 10) : (BitVec.ofNat 4 n).toNat = n := by
  simp; omega

/-- 30_encoding.md R82: `put` gives `fixlen` bytes for a fixed-width tag. -/
theorem put_fixed {t : Tag} (ht : t ≠ .negR) (ht' : t ≠ .invalid) (m : Word) :
    ∃ bs, put t m = .ok bs ∧ bs.length = fixlen t := by
  cases t <;> simp_all [put, fixlen]

/-- The bytes ENC writes for a value (44_encode.md R193 to R195). -/
def encBytes (val : Word) : List Byte :=
  if classV val = .negR then 0xF8#8 :: (put (posclass (neg64 val)) (neg64 val)).toOption.getD []
  else if classV val = .neg2 then [0xFC#8 ||| byteAt (neg64 val) 0]
  else (put (classV val) val).toOption.getD []

theorem length_encBytes (val : Word) : (encBytes val).length = lenV val := by
  unfold encBytes lenV
  split_ifs with h h2
  · obtain ⟨bs, hb, hn⟩ := put_fixed (posclass_ne_negR (neg64 val)) (posclass_ne_invalid _) (neg64 val)
    simp [hb, hn, Except.toOption, Nat.add_comm]
  · simp [h2, fixlen]
  · obtain ⟨bs, hb, hn⟩ := put_fixed h (classV_ne_invalid val) val
    simp [hb, hn, Except.toOption]

/-- All that a fitting ENC does: it puts the bytes of the value at the start of the window. -/
theorem enc_fits {fw : EncFailWrite} {m : Memory} {W : Window} {val : Word} (ho : windowOwned m W = true)
    (hl : lenV val ≤ W.limit) :
    enc fw m W val = .ok ⟨placeBytes m W.base (encBytes val), some (lenV val)⟩ := by
  unfold enc
  split
  · rename_i h
    have hlen : lenV val = 1 + fixlen (posclass (neg64 val)) := by simp [lenV, h]
    have := fixlen_posclass_bounds (neg64 val)
    obtain ⟨bs, hb, hn⟩ := put_fixed (posclass_ne_negR (neg64 val)) (posclass_ne_invalid _) (neg64 val)
    have h0 : memWrite m W 0 1 0xF8 = .ok (m.write W.base 0xF8) := by
      have := memWrite_one m W 0 0xF8#8
      rw [show ((0xF8#8 : Byte).toNat) = 0xF8 from rfl] at this
      rw [this]
      exact memSet_eq_ok.2 ⟨by omega, windowOwned_iff.1 ho 0 (by omega), rfl⟩
    have ho' : windowOwned (m.write W.base 0xF8) (W.sub 1) = true :=
      windowOwned_sub (windowOwned_iff.2 fun i hi => isSome_read_write (windowOwned_iff.1 ho i hi))
    have hw := writeBytes_owned (a := 0) (bs := bs) ho' (by simp; omega)
    unfold encNegR
    rw [if_neg (by omega), if_neg (by omega)]
    simp only [h0, hb, hw, bind, Except.bind, pure, Except.pure, sub_base, Nat.add_zero]
    simp [encBytes, h, hb, Except.toOption, placeBytes, hlen]
  · rename_i h
    have hlen : lenV val = fixlen (classV val) := by simp [lenV, h]
    unfold encFixed
    rw [if_neg (by omega)]
    by_cases h2 : classV val = .neg2
    · have hw := writeBytes_owned (a := 0) (bs := [0xFC#8 ||| byteAt (neg64 val) 0]) ho (by simp [hlen, h2, fixlen] at hl ⊢; omega)
      simp only [h2, if_pos, hw, bind, Except.bind, pure, Except.pure, Nat.add_zero]
      simp [encBytes, h2, hlen]
    · obtain ⟨bs, hb, hn⟩ := put_fixed h (classV_ne_invalid val) val
      have hw := writeBytes_owned (a := 0) (bs := bs) ho (by omega)
      simp only [h2, if_false, hb, hw, bind, Except.bind, pure, Except.pure, Nat.add_zero]
      simp [encBytes, h, h2, hb, hlen, Except.toOption]

/-- All that an ENC with too small a limit does: nothing, but for the marker of a NEG_R value under MARKER. -/
theorem enc_too_small {fw : EncFailWrite} {m : Memory} {W : Window} {val : Word} (ho : windowOwned m W = true)
    (hl : W.limit < lenV val) :
    enc fw m W val = .ok ⟨if classV val = .negR ∧ 2 ≤ W.limit ∧ fw = .marker then m.write W.base 0xF8 else m, none⟩ := by
  unfold enc
  split
  · rename_i h
    have hlen : lenV val = 1 + fixlen (posclass (neg64 val)) := by simp [lenV, h]
    unfold encNegR
    by_cases h2 : W.limit < 2
    · simp [h2, show ¬ 2 ≤ W.limit by omega]
    · have h0 : memWrite m W 0 1 0xF8 = .ok (m.write W.base 0xF8) := by
        have := memWrite_one m W 0 0xF8#8
        rw [show ((0xF8#8 : Byte).toNat) = 0xF8 from rfl] at this
        rw [this]
        exact memSet_eq_ok.2 ⟨by omega, windowOwned_iff.1 ho 0 (by omega), rfl⟩
      rw [if_neg h2, if_pos (by omega)]
      cases fw <;> simp [h, h0, Except.map, show 2 ≤ W.limit by omega]
  · rename_i h
    have hlen : lenV val = fixlen (classV val) := by simp [lenV, h]
    unfold encFixed
    rw [if_pos (by omega)]
    simp [h]

end Sys2Proof.Machine
end

