-- ==== Sys2Proof/Laws/Wire.lean ====
section
/-! SUPPORT. The wire decoder, said once: what a successful reading of a fixed-width varint consumed and means, and how
the bytes of one begin. -/

namespace Sys2Proof.Machine

/-- All that `decodeFixed` can answer from a first byte on: it consumed exactly the bytes of the tag's format, they are
the varint's bytes if the first is of that class, and its word is what `dec_fixed` assembles from them. -/
theorem decodeFixed_ok {t : Tag} {b0 : Byte} {bs rest : List Byte} {v : FixedVarint}
    (h : decodeFixed t (b0 :: bs) = .ok (v, rest)) :
    ∃ cs, bs = cs ++ rest ∧ cs.length + 1 = fixlen t ∧ v.tag = t ∧ t ≠ .negR ∧ t ≠ .invalid ∧
      (classB b0 = t → encodeFixed v = (b0 :: cs)) ∧ fixedWord v = decFixedOfBytes t b0 cs := by
  obtain ⟨r7, r14, r21, r28, r32, r64, -, r2⟩ := classB_range b0
  have hb0 := b0.isLt
  cases t with
  | negR => cases h
  | invalid => cases h
  | pos7 =>
    simp only [decodeFixed, Except.ok.injEq, Prod.mk.injEq] at h
    obtain ⟨rfl, rfl⟩ := h
    refine ⟨[], rfl, rfl, rfl, by simp, by simp, fun hc => ?_, ?_⟩
    · have := r7.1 hc; simp [encodeFixed, beNat, ← BitVec.toNat_inj]; omega
    · simp [fixedWord, decFixedOfBytes, magNat, beNat, ← BitVec.toNat_inj]
  | neg2 =>
    simp only [decodeFixed, Except.ok.injEq, Prod.mk.injEq] at h
    obtain ⟨rfl, rfl⟩ := h
    refine ⟨[], rfl, rfl, rfl, by simp, by simp, fun hc => ?_, ?_⟩
    · have := r2.1 hc; simp [encodeFixed, beNat, ← BitVec.toNat_inj]; omega
    · simp [fixedWord, decFixedOfBytes, magNat, beNat, setWidth_eq_ofNat]
  | pos14 =>
    match bs, h with
    | b1 :: r, h =>
      have := b1.isLt
      simp only [decodeFixed, Except.ok.injEq, Prod.mk.injEq] at h
      obtain ⟨rfl, rfl⟩ := h
      refine ⟨[b1], rfl, rfl, rfl, by simp, by simp, fun hc => ?_, ?_⟩
      · have := r14.1 hc; simp [encodeFixed, byteOf, beNat, ← BitVec.toNat_inj]; omega
      · simp [fixedWord, decFixedOfBytes, magNat, beNat, ← BitVec.toNat_inj]; omega
  | pos21 =>
    match bs, h with
    | b1 :: b2 :: r, h =>
      have := b1.isLt
      have := b2.isLt
      simp only [decodeFixed, Except.ok.injEq, Prod.mk.injEq] at h
      obtain ⟨rfl, rfl⟩ := h
      refine ⟨[b1, b2], rfl, rfl, rfl, by simp, by simp, fun hc => ?_, ?_⟩
      · have := r21.1 hc; simp [encodeFixed, byteOf, beNat, ← BitVec.toNat_inj]; omega
      · simp [fixedWord, decFixedOfBytes, magNat, beNat, ← BitVec.toNat_inj]; omega
  | pos28 =>
    match bs, h with
    | b1 :: b2 :: b3 :: r, h =>
      have := b1.isLt
      have := b2.isLt
      have := b3.isLt
      simp only [decodeFixed, Except.ok.injEq, Prod.mk.injEq] at h
      obtain ⟨rfl, rfl⟩ := h
      refine ⟨[b1, b2, b3], rfl, rfl, rfl, by simp, by simp, fun hc => ?_, ?_⟩
      · have := r28.1 hc; simp [encodeFixed, byteOf, beNat, ← BitVec.toNat_inj]; omega
      · simp [fixedWord, decFixedOfBytes, magNat, beNat, ← BitVec.toNat_inj]; omega
  | pos32 =>
    match bs, h with
    | b1 :: b2 :: b3 :: b4 :: r, h =>
      have := b1.isLt
      have := b2.isLt
      have := b3.isLt
      have := b4.isLt
      simp only [decodeFixed, Except.ok.injEq, Prod.mk.injEq] at h
      obtain ⟨rfl, rfl⟩ := h
      refine ⟨[b1, b2, b3, b4], rfl, rfl, rfl, by simp, by simp, fun hc => ?_, ?_⟩
      · have := r32.1 hc; simp [encodeFixed, byteOf, beNat, ← BitVec.toNat_inj]; omega
      · simp [fixedWord, decFixedOfBytes, magNat, beNat, ← BitVec.toNat_inj]; omega
  | pos64 =>
    match bs, h with
    | b1 :: b2 :: b3 :: b4 :: b5 :: b6 :: b7 :: b8 :: r, h =>
      have := b1.isLt
      have := b2.isLt
      have := b3.isLt
      have := b4.isLt
      have := b5.isLt
      have := b6.isLt
      have := b7.isLt
      have := b8.isLt
      simp only [decodeFixed, Except.ok.injEq, Prod.mk.injEq] at h
      obtain ⟨rfl, rfl⟩ := h
      refine ⟨[b1,b2,b3,b4,b5,b6,b7,b8], rfl, rfl, rfl, by simp, by simp, fun hc => ?_, ?_⟩
      · have := r64.1 hc; simp [encodeFixed, byteOf, beNat, ← BitVec.toNat_inj]; omega
      · simp [fixedWord, decFixedOfBytes, magNat, beNat]

/-- The first byte of a fixed-width varint is of the varint's class (40_classify.md R119). -/
theorem class_encode (v : FixedVarint) : ∃ b0 bs, encodeFixed v = b0 :: bs ∧ classB b0 = v.tag := by
  cases v with
  | pos7 m => refine ⟨_, _, rfl, ((classB_range _).1).2 ?_⟩; have := m.isLt; simp; omega
  | pos14 m => refine ⟨_, _, rfl, ((classB_range _).2.1).2 ?_⟩; have := m.isLt; simp; omega
  | pos21 m => refine ⟨_, _, rfl, ((classB_range _).2.2.1).2 ?_⟩; have := m.isLt; simp; omega
  | pos28 m => refine ⟨_, _, rfl, ((classB_range _).2.2.2.1).2 ?_⟩; have := m.isLt; simp; omega
  | pos32 x m => refine ⟨_, _, rfl, ((classB_range _).2.2.2.2.1).2 ?_⟩; have := x.isLt; simp; omega
  | pos64 x m => refine ⟨_, _, rfl, ((classB_range _).2.2.2.2.2.1).2 ?_⟩; have := x.isLt; simp; omega
  | neg2 m => refine ⟨_, _, rfl, ((classB_range _).2.2.2.2.2.2.2).2 ?_⟩; have := m.isLt; simp; omega

/-- The fields of an encoded fixed-width varint are read back, whatever follows. -/
theorem decodeFixed_encode (v : FixedVarint) (rest : List Byte) :
    decodeFixed v.tag (encodeFixed v ++ rest) = .ok (v, rest) := by
  cases v <;> simp [FixedVarint.tag, encodeFixed, decodeFixed, beNat, byteOf, ← BitVec.toNat_inj]
  case pos7 m => have := m.isLt; omega
  case pos14 m => have := m.isLt; omega
  case pos21 m => have := m.isLt; omega
  case pos28 m => have := m.isLt; omega
  case pos32 x m => have := m.isLt; have := x.isLt; omega
  case pos64 x m => have := m.isLt; have := x.isLt; omega
  case neg2 m => have := m.isLt; omega

/-- A fixed-width varint followed by anything reads as that varint. -/
theorem decodeVarint_fixed (v : FixedVarint) (rest) : decodeVarint (encodeFixed v ++ rest) = .ok (.ofFixed v, rest) := by
  obtain ⟨b0, bs, he, hc⟩ := class_encode v
  have := decodeFixed_encode v rest
  rw [he] at this ⊢
  simp only [List.cons_append] at this ⊢
  simp [decodeVarint, hc, tag_ne_negR v, this]

/-- A NEG_R varint followed by anything reads as that varint. -/
theorem decodeVarint_marker (x) (v : FixedVarint) (rest) : decodeVarint (markerByte x :: (encodeFixed v ++ rest)) = .ok (.negR x v, rest) := by
  obtain ⟨b0, bs, he, hc⟩ := class_encode v
  have := decodeFixed_encode v rest
  rw [he] at this ⊢
  simp only [List.cons_append] at this ⊢
  have hx := x.isLt
  have hm : classB (markerByte x) = .negR := (classB_range _).2.2.2.2.2.2.1.2 (by simp [markerByte]; omega)
  have h2 : BitVec.setWidth 2 (markerByte x) = x := by simp [markerByte, ← BitVec.toNat_inj]; omega
  simp [decodeVarint, hm, hc, this, h2]

/-- Enough bytes always hold a fixed-width varint. -/
theorem decodeFixed_long {t : Tag} (ht : t ≠ .negR) (ht' : t ≠ .invalid) {bs : List Byte} (h : fixlen t ≤ bs.length) :
    ∃ v r, decodeFixed t bs = .ok (v, r) := by
  cases t
  case negR => exact absurd rfl ht
  case invalid => exact absurd rfl ht'
  case pos7 => match bs, h with | _ :: _, _ => exact ⟨_, _, rfl⟩
  case neg2 => match bs, h with | _ :: _, _ => exact ⟨_, _, rfl⟩
  case pos14 => match bs, h with | _ :: _ :: _, _ => exact ⟨_, _, rfl⟩
  case pos21 => match bs, h with | _ :: _ :: _ :: _, _ => exact ⟨_, _, rfl⟩
  case pos28 => match bs, h with | _ :: _ :: _ :: _ :: _, _ => exact ⟨_, _, rfl⟩
  case pos32 => match bs, h with | _ :: _ :: _ :: _ :: _ :: _, _ => exact ⟨_, _, rfl⟩
  case pos64 => match bs, h with | _ :: _ :: _ :: _ :: _ :: _ :: _ :: _ :: _ :: _, _ => exact ⟨_, _, rfl⟩

/-- 44_encode.md R194: the bytes of `put` are those of the narrowest varint. -/
theorem narrowest_bytes (m : Word) : put (posclass m) m = .ok (encodeFixed (narrowest m)) := by
  have hm := m.isLt
  unfold posclass narrowest
  split_ifs <;> simp [put, encodeFixed, byteAt, byteOf, u64, ← BitVec.toNat_inj] at * <;> omega

/-- The join of 0xFC and two bits is their sum. -/
theorem or_neg2 : ∀ k : Byte, 0xFC#8 ||| k = if k.toNat < 4 then BitVec.ofNat 8 (0xFC + k.toNat) else 0xFC#8 ||| k := by decide

/-- The bytes ENC writes are those of the canonical varint of the value. -/
theorem encBytes_canonical (val : Word) : encBytes val = wireBytes (canonical val) := by
  unfold encBytes canonical
  by_cases h : classV val = .negR
  · rw [if_pos h, if_pos (classV_eq_negR.1 h), narrowest_bytes]; rfl
  · rw [if_neg h, if_neg (fun h' => h (classV_eq_negR.2 h'))]
    by_cases h2 : classV val = .neg2
    · have hb := classV_eq_neg2.1 h2
      have hn := @u64_neg64_of_neg val (by omega)
      rw [if_pos h2, if_pos hb.2]
      have hlt : u64 (neg64 val) < 4 := by omega
      rw [or_neg2]
      have : (byteAt (neg64 val) 0).toNat = u64 (neg64 val) := by simp [byteAt, byteOf]; omega
      rw [this, if_pos hlt]
      simp only [wireBytes, encode, encodeFixed]
      simp [u64] at hlt ⊢
      congr 2; omega
    · have h0 : 0 ≤ s64 val := by
        by_contra hc
        by_cases h4 : s64 val ≤ -4
        · exact h (classV_eq_negR.2 h4)
        · exact h2 (classV_eq_neg2.2 (by omega))
      rw [if_neg h2, if_neg (by omega), classV_of_nonneg h0, narrowest_bytes, wireBytes_ofFixed]; rfl

/-- The word of the narrowest varint of a magnitude is the magnitude. -/
theorem word_narrowest (m : Word) : fixedWord (narrowest m) = m := by
  have hm := m.isLt
  unfold narrowest
  split_ifs <;> simp [fixedWord, u64, ← BitVec.toNat_inj] at * <;> omega

end Sys2Proof.Machine
end

