-- ==== Sys2Proof/Laws/Outcomes.lean ====
section
/-! SUPPORT. What the three commands on a window answer, each said once: the cases of IDENT, DEC and ENC as equations
between outcomes. -/

namespace Sys2Proof.Machine

/-- An IDENT or a DEC that answers had a window the host owns, and an ENC too. -/
theorem owned_of_next {i : Instr} {W : Window} {s t : State} (hw : windowOf i = some W) (h : exec i s = .next t) :
    windowOwned s.mem W = true := by
  cases i <;> simp only [windowOf, reduceCtorEq, Option.some.injEq] at hw <;> subst hw <;>
    simp only [exec, execIdent, execDec, execEnc] at h <;> split at h <;> first | assumption | cases h

/-- A fitting ENC. -/
theorem exec_enc_fits {W : Window} {val : Word} {s : State} (ho : windowOwned s.mem W = true)
    (hl : lenV val ≤ W.limit) :
    exec (.enc W val) s = .next (State.respond { s with mem := placeBytes s.mem W.base (encBytes val) }
      (Response.measured (lenV val))) := by
  simp [exec, execEnc, ho, enc_fits ho hl, State.concludeEnc]

/-- The buffer after an ENC that does not fit. -/
def failedMem (fw : EncFailWrite) (m : Memory) (W : Window) (val : Word) : Memory :=
  if classV val = .negR ∧ 2 ≤ W.limit ∧ fw = .marker then m.write W.base 0xF8 else m

/-- An ENC that does not fit. -/
theorem exec_enc_small {W : Window} {val : Word} {s : State} (ho : windowOwned s.mem W = true)
    (hl : W.limit < lenV val) :
    exec (.enc W val) s =
      .next (State.raise { s with mem := failedMem Config.encFailWrite s.mem W val } .insufficientSpace) := by
  simp [exec, execEnc, ho, enc_too_small ho hl, State.concludeEnc, failedMem]

/-- IDENT on a window the host owns. -/
theorem exec_ident_owned {W : Window} {s : State} (ho : windowOwned s.mem W = true) :
    (ident s.mem W = .error (.raise .invalid) ∧ exec (.ident W) s = .next (s.raise .invalid)) ∨
    ∃ i, ident s.mem W = .ok i ∧ exec (.ident W) s = .next (s.respond (Response.identified i.tag i.rtag i.length)) := by
  rcases ident_owned ho with ⟨i, hi⟩ | ⟨hi, -⟩
  · exact .inr ⟨i, hi, by simp [exec, execIdent, ho, hi, Except.map]⟩
  · exact .inl ⟨hi, by simp [exec, execIdent, ho, hi, Except.map]⟩

/-- DEC on a window the host owns. -/
theorem exec_dec_owned {W : Window} {s : State} (ho : windowOwned s.mem W = true) :
    (dec s.mem W = .error (.raise .invalid) ∧ exec (.dec W) s = .next (s.raise .invalid)) ∨
    ∃ d, dec s.mem W = .ok d ∧ exec (.dec W) s = .next (s.respond (Response.decoded d.value d.length)) := by
  rcases dec_owned ho with ⟨-, hd⟩ | ⟨-, -, -, hd⟩ | ⟨_, _, -, -, -, -, -, hd⟩ | ⟨_, _, _, -, -, -, -, -, -, hd⟩
  · exact .inl ⟨hd, by simp [exec, execDec, ho, hd, Except.map]⟩
  · exact .inl ⟨hd, by simp [exec, execDec, ho, hd, Except.map]⟩
  · exact .inr ⟨_, hd, by simp [exec, execDec, ho, hd, Except.map]⟩
  · exact .inr ⟨_, hd, by simp [exec, execDec, ho, hd, Except.map]⟩

/-- An instruction without a window answers the same response in every state, and its status is OK. -/
theorem exec_no_window {i : Instr} (hw : windowOf i = none) :
    ∃ r : Response, r.status = .ok ∧ ∀ s, exec i s = .next (s.respond r) := by
  cases i <;> simp only [windowOf, reduceCtorEq] at hw <;> exact ⟨_, rfl, fun _ => rfl⟩

/-- Two memories that read alike below the limit. -/
def agreeOn (m m' : Memory) (W : Window) : Prop := ∀ k, k < W.limit → m.read (W.base + k) = m'.read (W.base + k)

theorem agreeOn_sub {m m' : Memory} {W : Window} (h : agreeOn m m' W) (k : Nat) : agreeOn m m' (W.sub k) := by
  intro i hi
  simpa [Nat.add_assoc] using h (k + i) (by simp at hi; omega)

theorem memByte_congr {m m' : Memory} {W : Window} (h : agreeOn m m' W) (i : Nat) : memByte m W i = memByte m' W i := by
  unfold memByte
  split
  · rw [h i ‹_›]
  · rfl

theorem memRead_congr {m m' : Memory} {W : Window} (h : agreeOn m m' W) (a n : Nat) :
    memRead m W a n = memRead m' W a n := by
  induction n with
  | zero => rfl
  | succ n ih => simp only [memRead, ih, memByte_congr h]

theorem mag_congr {m m' : Memory} {W : Window} (h : agreeOn m m' W) (t : Tag) : mag m t W = mag m' t W := by
  cases t <;> simp only [mag, memByte_congr h, memRead_congr h]

theorem ident_congr {m m' : Memory} {W : Window} (h : agreeOn m m' W) : ident m W = ident m' W := by
  simp only [ident, memByte_congr h]

/-- DEC sees memory below the limit only. -/
theorem dec_congr {m m' : Memory} {W : Window} (h : agreeOn m m' W) : dec m W = dec m' W := by
  simp only [dec, decFixed, ident_congr h, mag_congr h, mag_congr (agreeOn_sub h 1)]

theorem windowOwned_congr {m m' : Memory} {W : Window} (h : agreeOn m m' W) : windowOwned m W = windowOwned m' W := by
  rw [Bool.eq_iff_iff, windowOwned_iff, windowOwned_iff]
  exact forall_congr' fun i => forall_congr' fun hi => by rw [h i hi]

/-- ENC leaves every byte at or beyond the limit, and every byte below the base, as it was. -/
theorem exec_enc_outside {W : Window} {val : Word} {s t : State} (h : exec (.enc W val) s = .next t) :
    s.mem.sameOutside t.mem W.base (min W.limit 10) := by
  have ho := owned_of_next rfl h
  have hb := lenV_bounds val
  intro x hx
  by_cases hl : W.limit < lenV val
  · rw [exec_enc_small ho hl] at h
    cases h
    simp only [raise_mem, failedMem]
    split
    · exact read_write_ne (by omega)
    · rfl
  · rw [exec_enc_fits ho (not_lt.1 hl)] at h
    cases h
    simp only [respond_mem]
    exact placeBytes_sameOutside _ _ _ x (by rw [length_encBytes]; omega)

/-- All an instruction can do when it answers: one response, and for ENC the bytes of its window. -/
theorem exec_next {i : Instr} {s t : State} (h : exec i s = .next t) :
    (∃ r, t.unit = ⟨none, some r⟩) ∧ t.others = s.others ∧ t.moves = s.moves ∧
      ((∀ W val, i ≠ .enc W val) → t.mem = s.mem) ∧
      (Memory.wf s.mem = true → Memory.wf t.mem = true) ∧
      (∀ a, (s.mem.read a).isSome → (t.mem.read a).isSome) := by
  cases hw : windowOf i with
  | none =>
    obtain ⟨r, -, hr⟩ := exec_no_window hw
    rw [hr] at h; cases h
    exact ⟨⟨r, rfl⟩, rfl, rfl, fun _ => rfl, id, fun _ => id⟩
  | some W =>
    have ho := owned_of_next hw h
    cases i <;> simp only [windowOf, reduceCtorEq, Option.some.injEq] at hw <;> subst hw
    case ident W =>
      rcases exec_ident_owned ho with ⟨-, hi⟩ | ⟨_, -, hi⟩ <;> rw [hi] at h <;> cases h <;>
        exact ⟨⟨_, rfl⟩, rfl, rfl, fun _ => rfl, id, fun _ => id⟩
    case dec W =>
      rcases exec_dec_owned ho with ⟨-, hi⟩ | ⟨_, -, hi⟩ <;> rw [hi] at h <;> cases h <;>
        exact ⟨⟨_, rfl⟩, rfl, rfl, fun _ => rfl, id, fun _ => id⟩
    case enc W val =>
      by_cases hl : W.limit < lenV val
      · rw [exec_enc_small ho hl] at h; cases h
        refine ⟨⟨_, rfl⟩, rfl, rfl, fun hn => absurd rfl (hn _ _), fun hwf => ?_, fun a ha => ?_⟩
        · simp only [raise_mem, failedMem]; split
          · exact write_wf _ _ hwf
          · exact hwf
        · simp only [raise_mem, failedMem]; split
          · exact isSome_read_write ha
          · exact ha
      · rw [exec_enc_fits ho (not_lt.1 hl)] at h; cases h
        refine ⟨⟨_, rfl⟩, rfl, rfl, fun hn => absurd rfl (hn _ _), fun hwf => placeBytes_wf _ _ hwf, fun a ha => ?_⟩
        simp only [respond_mem, read_placeBytes]
        split
        · rw [List.getElem?_eq_getElem (by omega)]; rfl
        · exact ha

/-- An instruction of the machine stops only because its window is not the host's. -/
theorem exec_cases (i : Instr) (s : State) :
    (∃ t, exec i s = .next t) ∨
      (exec i s = .refused .windowNotOwned ∧ ∃ W, windowOf i = some W ∧ windowOwned s.mem W = false) := by
  cases hw : windowOf i with
  | none => obtain ⟨r, -, hr⟩ := exec_no_window hw; exact .inl ⟨_, hr s⟩
  | some W =>
    by_cases ho : windowOwned s.mem W = true
    · left
      cases i <;> simp only [windowOf, reduceCtorEq, Option.some.injEq] at hw <;> subst hw
      case ident W => rcases exec_ident_owned ho with ⟨-, hi⟩ | ⟨_, -, hi⟩ <;> exact ⟨_, hi⟩
      case dec W => rcases exec_dec_owned ho with ⟨-, hi⟩ | ⟨_, -, hi⟩ <;> exact ⟨_, hi⟩
      case enc W val =>
        by_cases hl : W.limit < lenV val
        · exact ⟨_, exec_enc_small ho hl⟩
        · exact ⟨_, exec_enc_fits ho (not_lt.1 hl)⟩
    · right
      refine ⟨?_, W, rfl, by simpa using ho⟩
      cases i <;> simp only [windowOf, reduceCtorEq, Option.some.injEq] at hw <;> subst hw <;>
        simp [exec, execIdent, execDec, execEnc, ho]

end Sys2Proof.Machine
end

