-- ==== Sys2Proof/Laws/Launch.lean ====
section
/-! SUPPORT. What the launching of commands and one step of the machine can do, each said once. -/

namespace Sys2Proof

/-- 20_memory.md R55: sharing a byte is mutual. -/
theorem overlaps_comm (V W : Window) : V.overlaps W = W.overlaps V := by
  simp [Window.overlaps, max_comm, min_comm]

/-- Windows that do not overlap have no address in common. -/
theorem not_mem_of_not_overlaps {V W : Window} (h : V.overlaps W = false) {a : Nat} (hV : V.base ≤ a)
    (hV' : a < V.base + V.limit) (hW : W.base ≤ a) (hW' : a < W.base + W.limit) : False := by
  simp [Window.overlaps] at h; omega

/-- 20_memory.md R60: which addresses the host keeps off while `c` is in progress. -/
theorem guards_iff {a : Nat} {c : Command} :
    c.guards a = true ↔ ∃ W, c.window? = some W ∧ W.base ≤ a ∧ a < W.base + W.limit := by
  cases hW : c.window? <;> simp [Command.guards, hW, Window.covers]

namespace Machine

/-- The eight operation codes. -/
theorem op_cases : ∀ o : BitVec 3, o = 0 ∨ o = 1 ∨ o = 2 ∨ o = 3 ∨ o = 4 ∨ o = 5 ∨ o = 6 ∨ o = 7 := by decide

/-- 20_memory.md R60: the host keeps off exactly the windows of the commands in progress. -/
theorem inUse_iff {s : State} {a : Nat} :
    s.inUse a = true ↔
      ∃ c W, c ∈ inProgress s.units ∧ c.window? = some W ∧ W.base ≤ a ∧ a < W.base + W.limit := by
  simp only [State.inUse, List.any_eq_true, guards_iff]
  exact ⟨fun ⟨c, hc, W, h⟩ => ⟨c, W, hc, h⟩, fun ⟨c, W, hc, h⟩ => ⟨c, hc, W, h⟩⟩

/-- Memory and moves do not change which addresses are in use. -/
@[simp] theorem inUse_moves (s : State) (m : Memory) (ms : List Move) (a : Nat) :
    State.inUse { s with mem := m, moves := ms } a = s.inUse a := rfl

/-- The instruction a command selects has the command's window, and it is an ENC exactly for operation 5. -/
theorem windowOf_decode {c : Command} {i : Instr} (h : decodeCommand c = .ok i) :
    windowOf i = c.window? ∧ ((∃ W val, i = .enc W val) ↔ c.op = 5) := by
  obtain ⟨op, val, lim, win⟩ := c
  revert h
  rcases op_cases op with h | h | h | h | h | h | h | h <;> subst h <;> intro h <;> simp [decodeCommand] at h <;>
    subst h <;> simp [windowOf, Command.window?]

/-- A command with a window is one of the six. -/
theorem decode_of_window {c : Command} {W : Window} (h : c.window? = some W) : ∃ i, decodeCommand c = .ok i := by
  obtain ⟨op, val, lim, win⟩ := c
  revert h
  rcases op_cases op with h | h | h | h | h | h | h | h <;> subst h <;> simp [decodeCommand, Command.window?]

theorem conflict_comm (c d : Command) : conflict c d = conflict d c := by
  unfold conflict
  split <;> rename_i h1
  · rename_i h2; simp [h1, h2, overlaps_comm, Bool.or_comm]
  · cases hc : c.window? <;> cases hd : d.window? <;> simp_all

/-- All that performing a command can do when it answers. -/
theorem perform_next {c : Command} {s t : State} (h : perform c s = .next t) :
    ∃ i, decodeCommand c = .ok i ∧ exec i s = .next t := by
  unfold perform at h
  split at h
  · exact ⟨_, ‹_›, h⟩
  · cases h

/-- All that issuing a command can do when it is accepted. -/
theorem issue_next {c : Command} {s t : State} (h : issue c s = .next t) :
    t = { s with unit := ⟨some c, none⟩ } ∧ (∃ i, decodeCommand c = .ok i) ∧
      (∀ W, c.window? = some W → windowOwned s.mem W = true) ∧ ∀ d ∈ inProgress s.others, conflict c d = false := by
  unfold issue at h
  split at h
  · cases h
  · rename_i hr
    cases h
    refine ⟨rfl, ?_⟩
    unfold launchRefusal at hr
    split at hr
    · cases hr
    · rename_i i hi
      refine ⟨⟨i, hi⟩, ?_⟩
      split at hr
      · rename_i hw
        exact ⟨fun W h => by simp [hw] at h, fun d _ => by simp [conflict, hw]⟩
      · rename_i W hw
        split at hr
        · cases hr
        · split at hr
          · cases hr
          · rename_i h1 h2
            refine ⟨fun V hV => by rw [hw] at hV; cases hV; simpa using h1, ?_⟩
            simpa using h2

/-- All that turning to another unit can do when there is one: the two units change places. -/
theorem switchTo_next {k : Nat} {s t : State} (h : switchTo k s = .next t) :
    ∃ u, s.others[k]? = some u ∧ t = { s with unit := u, others := s.others.set k s.unit } := by
  unfold switchTo at h
  split at h
  · rename_i u hu
    cases h; exact ⟨u, hu, rfl⟩
  · cases h

/-- Two units that change places are the same units in another order. -/
theorem swap_perm {us : List UnitPorts} {k : Nat} {u v : UnitPorts} (h : us[k]? = some u) :
    (u :: us.set k v).Perm (v :: us) := by
  induction us generalizing k with
  | nil => simp at h
  | cons w us ih =>
    cases k with
    | zero => simp at h; subst h; simpa using List.Perm.swap _ _ _
    | succ k => exact (List.Perm.swap _ _ _).trans (((ih (by simpa using h)).cons w).trans (List.Perm.swap _ _ _))

/-- What the bytes of an abandoned ENC leave, given that the completed ENC has every byte of its part. -/
theorem read_landBytes (landed : BitVec 10) (W : Window) (new old : Memory) (n a : Nat)
    (hs : ∀ k, k < n → (new.read (W.base + k)).isSome) :
    (landBytes landed W new old n).read a =
      if W.base ≤ a ∧ a < W.base + n ∧ landed.getLsbD (a - W.base) then new.read a else old.read a := by
  induction n with
  | zero => rw [if_neg (by omega)]; rfl
  | succ n ih =>
    have ih := ih (fun k hk => hs k (by omega))
    simp only [landBytes]
    split
    · rename_i hl
      split
      · rename_i b hb
        rw [read_write]
        split
        · rename_i h; subst h; rw [if_pos ⟨by omega, by omega, by simpa using hl⟩, hb]
        · rw [ih]
          congr 1
          exact propext ⟨fun ⟨h1, h2, h3⟩ => ⟨h1, by omega, h3⟩, fun ⟨h1, h2, h3⟩ => ⟨h1, by omega, h3⟩⟩
      · rename_i hb; have := hs n (by omega); simp [hb] at this
    · rename_i hl
      rw [ih]
      congr 1
      refine propext ⟨fun ⟨h1, h2, h3⟩ => ⟨h1, by omega, h3⟩, fun ⟨h1, h2, h3⟩ => ⟨h1, ?_, h3⟩⟩
      by_contra h4
      rw [show a - W.base = n by omega] at h3
      exact hl h3

/-- An abandoned command keeps memory canonical and takes no byte from the host. -/
theorem abandoned_keeps (landed : BitVec 10) (c : Command) (m : Memory) :
    (Memory.wf m = true → Memory.wf (abandoned landed c m) = true) ∧
      ∀ a, (m.read a).isSome → ((abandoned landed c m).read a).isSome := by
  have hl : ∀ W new n, (Memory.wf m = true → Memory.wf (landBytes landed W new m n) = true) ∧
      ∀ a, (m.read a).isSome → ((landBytes landed W new m n).read a).isSome := by
    intro W new n
    induction n with
    | zero => exact ⟨id, fun _ => id⟩
    | succ n ih =>
      simp only [landBytes]
      split
      · split
        · exact ⟨fun h => write_wf _ _ (ih.1 h), fun a ha => isSome_read_write (ih.2 a ha)⟩
        · exact ih
      · exact ih
  unfold abandoned
  split
  · split
    · exact hl _ _ _
    · exact ⟨id, fun _ => id⟩
  · exact ⟨id, fun _ => id⟩

/-- Memory after a reset of the unit. -/
def resetMem (landed : BitVec 10) (s : State) : Memory :=
  match s.unit.cmd with
  | some c => abandoned landed c s.mem
  | none => s.mem

/-- All a step can do when it answers: perform the command in progress, take a command on, pass a move without any
effect, turn to another unit, put a byte of the host, or reset the unit. -/
theorem step_cases {s t : State} (h : step s = .next t) :
    (∃ c i ms, s.unit.cmd = some c ∧ decodeCommand c = .ok i ∧ exec i { s with moves := ms } = .next t) ∨
    (∃ c ms, s.unit.cmd = none ∧ issue c { s with moves := ms } = .next t) ∨
    (∃ ms, t = { s with moves := ms }) ∨
    (∃ k u ms, (s.moves = [] ∧ s.unit.cmd = none ∨ s.moves = .switch k :: ms) ∧ s.others[k]? = some u ∧
      t = { s with unit := u, others := s.others.set k s.unit, moves := ms }) ∨
    (∃ a b ms, s.inUse a = false ∧
      t = { s with mem := s.mem.write a b, moves := ms }) ∨
    (∃ landed ms, t = { s with mem := resetMem landed s, unit := UnitPorts.idle, moves := ms }) := by
  have hp : ∀ c ms, s.unit.cmd = some c → perform c { s with moves := ms } = .next t →
      ∃ c i ms, s.unit.cmd = some c ∧ decodeCommand c = .ok i ∧ exec i { s with moves := ms } = .next t := by
    intro c ms hc h
    obtain ⟨i, hi, he⟩ := perform_next h
    exact ⟨c, i, ms, hc, hi, he⟩
  have hs : ∀ k ms, (s.moves = [] ∧ s.unit.cmd = none ∨ s.moves = .switch k :: ms) →
      switchTo k { s with moves := ms } = .next t →
      ∃ k u ms, (s.moves = [] ∧ s.unit.cmd = none ∨ s.moves = .switch k :: ms) ∧ s.others[k]? = some u ∧
        t = { s with unit := u, others := s.others.set k s.unit, moves := ms } := by
    intro k ms hk h
    obtain ⟨u, hu, rfl⟩ := switchTo_next h
    exact ⟨k, u, ms, hk, hu, rfl⟩
  unfold step act at h
  split at h
  · rename_i hm
    unfold runOn at h
    split at h
    · exact .inl (hp _ s.moves ‹_› h)
    · split at h
      · exact .inr (.inr (.inr (.inl (hs _ s.moves (.inl ⟨hm, ‹_›⟩) h))))
      · cases h; exact .inr (.inr (.inl ⟨s.moves, rfl⟩))
  · rename_i mv ms hm
    cases mv with
    | issue c =>
      simp only [takeMove] at h
      split at h
      · exact .inl (hp _ s.moves ‹_› h)
      · exact .inr (.inl ⟨_, _, ‹_›, h⟩)
    | finish =>
      simp only [takeMove] at h
      split at h
      · exact .inl (hp _ _ ‹_› h)
      · cases h; exact .inr (.inr (.inl ⟨_, rfl⟩))
    | switch k => exact .inr (.inr (.inr (.inl (hs k _ (.inr hm) h))))
    | poke a b =>
      simp only [takeMove, poke] at h
      split at h
      · cases h
      · rename_i hg
        cases h
        exact .inr (.inr (.inr (.inr (.inl ⟨a, b, ms, Bool.eq_false_iff.2 hg, rfl⟩))))
    | peek a =>
      simp only [takeMove, peek] at h
      split at h
      · cases h
      · cases h; exact .inr (.inr (.inl ⟨_, rfl⟩))
    | reset landed =>
      simp only [takeMove, resetUnit] at h
      cases h; exact .inr (.inr (.inr (.inr (.inr ⟨landed, ms, rfl⟩))))

end Machine

end Sys2Proof
end

