-- ==== Sys2Proof/Laws/PerInstr.lean ====
section
/-! SUPPORT. The family OpcodeRow: every instruction is encoded with the code of its row of the opcode table. -/

namespace Sys2Proof.Laws.OpcodeRow

open Sys2Proof.Machine

/-- What the opcode table fixes of an encoding: the `op` port of a command (30_encoding.md R91), or the class of the
leading byte of a varint (R71). -/
inductive Code where
  | op   (o : BitVec 3)
  | lead (t : Tag)
deriving DecidableEq, Repr

/-- The row of the opcode table an instruction stands for. -/
def codeOf : Instr → Code
  | .classv _  => .op 0
  | .classb _  => .op 1
  | .len _     => .op 2
  | .ident _   => .op 3
  | .dec _     => .op 4
  | .enc _ _   => .op 5
  | .pos7 _    => .lead .pos7
  | .pos14 _   => .lead .pos14
  | .pos21 _   => .lead .pos21
  | .pos28 _   => .lead .pos28
  | .pos32 _ _ => .lead .pos32
  | .pos64 _ _ => .lead .pos64
  | .negR _ _  => .lead .negR
  | .neg2 _    => .lead .neg2

/-- The encoding carries the code of the row, and a varint has at most ten bytes (41_length.md R134). -/
def Statement (i : Instr) : Prop :=
  match codeOf i with
  | .op o => ∃ c, encode i = .ports c ∧ c.op = o
  | .lead t => ∃ b0 bs, encode i = .bytes (b0 :: bs) ∧ classB b0 = t ∧ bs.length + 1 ≤ Config.maxLen

/-- A fixed-width varint carries the code of its tag. -/
theorem ofFixed (v : FixedVarint) :
    ∃ b0 bs, encode (.ofFixed v) = .bytes (b0 :: bs) ∧ classB b0 = v.tag ∧ bs.length + 1 ≤ Config.maxLen := by
  obtain ⟨b0, bs, he, hc⟩ := class_encode v
  refine ⟨b0, bs, ?_, hc, ?_⟩
  · rw [← he]; cases v <;> rfl
  · have hl := length_encodeFixed v
    have := fixlen_bounds (tag_ne_negR v) (tag_ne_invalid v)
    simp [he] at hl
    simp [Config.maxLen]; omega

theorem classv (val : Word) : Statement (.classv val) := ⟨_, rfl, rfl⟩
theorem classb (b : Byte) : Statement (.classb b) := ⟨_, rfl, rfl⟩
theorem len (val : Word) : Statement (.len val) := ⟨_, rfl, rfl⟩
theorem ident (W : Window) : Statement (.ident W) := ⟨_, rfl, rfl⟩
theorem dec (W : Window) : Statement (.dec W) := ⟨_, rfl, rfl⟩
theorem enc (W : Window) (val : Word) : Statement (.enc W val) := ⟨_, rfl, rfl⟩
theorem pos7 (m : BitVec 7) : Statement (.pos7 m) := ofFixed (.pos7 m)
theorem pos14 (m : BitVec 14) : Statement (.pos14 m) := ofFixed (.pos14 m)
theorem pos21 (m : BitVec 21) : Statement (.pos21 m) := ofFixed (.pos21 m)
theorem pos28 (m : BitVec 28) : Statement (.pos28 m) := ofFixed (.pos28 m)
theorem pos32 (x : BitVec 2) (m : BitVec 32) : Statement (.pos32 x m) := ofFixed (.pos32 x m)
theorem pos64 (x : BitVec 2) (m : BitVec 64) : Statement (.pos64 x m) := ofFixed (.pos64 x m)
theorem neg2 (m : BitVec 2) : Statement (.neg2 m) := ofFixed (.neg2 m)

theorem negR (x : BitVec 2) (n : FixedVarint) : Statement (.negR x n) := by
  refine ⟨markerByte x, encodeFixed n, rfl, (classB_range _).2.2.2.2.2.2.1.2 ?_, ?_⟩
  · have := x.isLt; simp [markerByte]; omega
  · have := fixlen_bounds (tag_ne_negR n) (tag_ne_invalid n)
    simp [Config.maxLen]; omega

end Sys2Proof.Laws.OpcodeRow
end

