-- ==== Sys2Proof/Tests/Slice0.lean ====
section
/-! SUPPORT. The model's own tests. Expected results are the vectors of 95_test_vectors.md, the tables of 30_encoding.md,
or follow by hand from the rule a comment names. Every statement that has hypotheses has a witness here. -/

namespace Sys2Proof.Tests

open Sys2Proof.Machine

/-- A host that owns the bytes `bs` from address 64 on, an idle unit, and the moves `ms`. -/
def host (bs : List Byte) (ms : List Move := []) : State := ⟨placeBytes [] 64 bs, UnitPorts.idle, [], ms⟩

/-- The response of a state after a command. -/
def respOf (o : Host.Outcome State Fault Refusal) : Option Response := (nextState? o).bind fun t => t.unit.resp

/-- The refusal, where a command or a move is refused. -/
def refusal? : Host.Outcome State Fault Refusal → Option Refusal
  | .refused r => some r
  | .next _ => none
  | .fault _ => none

/-- The bytes from address 64 on after a command. -/
def bytesOf (n : Nat) (o : Host.Outcome State Fault Refusal) : Option (List (Option Byte)) :=
  (nextState? o).map fun t => (List.range n).map fun i => t.mem.read (64 + i)

/-! ## Ill-formed instructions are refused by WellFormed -/

theorem limit_too_wide : limitFits (2 ^ Config.limitWidth) = false := by
  have h : 2 ^ 4 ≤ 2 ^ Config.limitWidth := Nat.pow_le_pow_right (by decide) (by simp [Config.limitWidth])
  simp [limitFits]; omega

theorem test_ill_formed_ident : wellFormed (.ident ⟨0, 2 ^ Config.limitWidth⟩) = false := limit_too_wide
theorem test_ill_formed_dec : wellFormed (.dec ⟨0, 2 ^ Config.limitWidth⟩) = false := limit_too_wide
theorem test_ill_formed_enc : wellFormed (.enc ⟨0, 2 ^ Config.limitWidth⟩ 5) = false := limit_too_wide
theorem test_well_formed_at_every_width : wellFormed (.enc ⟨64, 15⟩ 5) = true := by decide

/-! ## Decoding: words written out from 30_encoding.md R71 to R79 and R91 -/

theorem test_decode_commands :
    decode (.ports ⟨0b000, 300, limitPort 9, 9⟩) = .ok (.classv 300) ∧
    decode (.ports ⟨0b001, 0x1F8, limitPort 9, 9⟩) = .ok (.classb 0xF8) ∧
    decode (.ports ⟨0b010, 300, limitPort 9, 9⟩) = .ok (.len 300) ∧
    decode (.ports ⟨0b011, 9, limitPort 4, 64⟩) = .ok (.ident ⟨64, 4⟩) ∧
    decode (.ports ⟨0b100, 9, limitPort 4, 64⟩) = .ok (.dec ⟨64, 4⟩) ∧
    decode (.ports ⟨0b101, 9, limitPort 4, 64⟩) = .ok (.enc ⟨64, 4⟩ 9) ∧
    decode (.ports ⟨0b110, 0, limitPort 0, 0⟩) = .error .reservedOp ∧
    decode (.ports ⟨0b111, 0, limitPort 0, 0⟩) = .error .reservedOp := by decide

theorem test_decode_pos7 : decode (.bytes [0b00101100]) = .ok (.pos7 0b0101100) := by decide
theorem test_decode_pos14 : decode (.bytes [0b10110000, 0b00001111]) = .ok (.pos14 0b11000000001111) := by decide
theorem test_decode_pos21 :
    decode (.bytes [0b11010001, 0b00001111, 0b10000001]) = .ok (.pos21 0b100010000111110000001) := by decide
theorem test_decode_pos28 :
    decode (.bytes [0b11101001, 0x23, 0x45, 0x67]) = .ok (.pos28 0x9234567) := by decide
theorem test_decode_pos32 : decode (.bytes [0b11110010, 0xDE, 0xAD, 0xBE, 0xEF]) = .ok (.pos32 2 0xDEADBEEF) := by decide
theorem test_decode_pos64 :
    decode (.bytes [0b11110101, 0x80, 1, 2, 3, 4, 5, 6, 7]) = .ok (.pos64 1 0x8001020304050607) := by decide
theorem test_decode_neg2 : decode (.bytes [0b11111110]) = .ok (.neg2 2) := by decide
theorem test_decode_negR : decode (.bytes [0b11111011, 0b10000001, 0x2C]) = .ok (.negR 3 (.pos14 300)) := by decide
theorem test_decode_rejects :
    decode (.bytes []) = .error .emptyWindow ∧ decode (.bytes [0xF8]) = .error .markerLast ∧
    decode (.bytes [0xF8, 0xFB, 0x04]) = .error .secondMarker ∧ decode (.bytes [0x81]) = .error .truncated := by decide

/-- A table word of each row: an `op` of three bits, or a leading byte with zeros after it. -/
theorem test_table_words :
    decodeTableWord 8 0 = some (.classv 0) ∧ decodeTableWord 8 1 = some (.classb 0) ∧
    decodeTableWord 8 2 = some (.len 0) ∧ decodeTableWord 8 3 = some (.ident ⟨0, 0⟩) ∧
    decodeTableWord 8 4 = some (.dec ⟨0, 0⟩) ∧ decodeTableWord 8 5 = some (.enc ⟨0, 0⟩ 0) ∧
    decodeTableWord 8 6 = none ∧ decodeTableWord 8 0x7F = some (.pos7 127) ∧
    decodeTableWord 8 0x80 = some (.pos14 0) ∧ decodeTableWord 16 0x2C81 = some (.pos14 300) ∧
    decodeTableWord 8 0xC0 = some (.pos21 0) ∧ decodeTableWord 8 0xE0 = some (.pos28 0) ∧
    decodeTableWord 8 0xF0 = some (.pos32 0 0) ∧ decodeTableWord 8 0xF4 = some (.pos64 0 0) ∧
    decodeTableWord 8 0xF8 = some (.negR 0 (.pos7 0)) ∧ decodeTableWord 8 0xFC = some (.neg2 0) := by decide

/-- A varint and a command run as the first step after reset. -/
theorem test_first_step :
    respOf (step (State.reset.withFetchWord 16 0x2C81)) = some ⟨.ok, none, none, some 2, some 300⟩ ∧
    respOf (step (State.reset.withFetchWord 8 5)) = some ⟨.insufficientSpace, none, none, some 0, none⟩ := by decide

/-! ## One step: vectors of 95_test_vectors.md -/

theorem test_classv_boundaries :
    [127, 128, 16383, 16384, 2097151, 2097152, 268435455, 268435456, 4294967295, 4294967296].map classV =
      [.pos7, .pos14, .pos14, .pos21, .pos21, .pos28, .pos28, .pos32, .pos32, .pos64] ∧
    respOf (exec (.classv 0x8000000000000000) (host [])) = some ⟨.ok, some .negR, none, none, none⟩ := by decide
theorem test_classv_negative :
    respOf (exec (.classv 0xFFFFFFFFFFFFFFFD) (host [])) = some ⟨.ok, some .neg2, none, none, none⟩ ∧
    respOf (exec (.classv 0xFFFFFFFFFFFFFFFC) (host [])) = some ⟨.ok, some .negR, none, none, none⟩ := by decide

theorem test_classb_markers :
    [0xF0, 0xF3, 0xF4, 0xF7, 0xF8, 0xFB, 0xFC, 0xFF].map classB =
      [.pos32, .pos32, .pos64, .pos64, .negR, .negR, .neg2, .neg2] := by decide
theorem test_len_negative :
    [-1, -3, -4, -127, -128, -16383, -16384, -4294967295, -4294967296, -9223372036854775808].map
      (fun v : Int => lenV (BitVec.ofInt 64 v)) = [1, 1, 2, 2, 3, 3, 4, 6, 10, 10] := by decide
theorem test_len_largest :
    respOf (exec (.len 0x7FFFFFFFFFFFFFFF) (host [])) = some ⟨.ok, none, none, some 9, none⟩ := by decide

theorem test_ident_tags :
    respOf (exec (.ident ⟨64, 1⟩) (host [0x81])) = some ⟨.ok, some .pos14, none, some 2, none⟩ ∧
    respOf (exec (.ident ⟨64, 2⟩) (host [0xF8, 0xF4])) = some ⟨.ok, some .negR, some .pos64, some 10, none⟩ ∧
    respOf (exec (.ident ⟨64, 2⟩) (host [0xF8, 0xFD])) = some ⟨.ok, some .negR, some .neg2, some 2, none⟩ := by decide
theorem test_ident_invalid :
    respOf (exec (.ident ⟨64, 0⟩) (host [0xAA])) = some ⟨.invalid, none, none, some 0, none⟩ ∧
    respOf (exec (.ident ⟨64, 1⟩) (host [0xF8, 0x04])) = some ⟨.invalid, none, none, some 0, none⟩ ∧
    respOf (exec (.ident ⟨64, 3⟩) (host [0xF8, 0xFB, 0x04])) = some ⟨.invalid, none, none, some 0, none⟩ := by decide

/-- A DEC vector: the bytes of the window, the value and the length. -/
def decGives (p : List Byte × Int × BitVec 4) : Bool :=
  decide (respOf (exec (.dec ⟨64, p.1.length⟩) (host p.1)) = some ⟨.ok, none, none, some p.2.2, some (BitVec.ofInt 64 p.2.1)⟩)

theorem test_dec_values :
    ([([0x7F], 127, 1), ([0x81, 0x2C, 0xFF], 300, 2), ([0xDF, 0xFF, 0xFF], 2097151, 3),
      ([0xE0, 0x20, 0x00, 0x00], 2097152, 4), ([0xF3, 0x00, 0x00, 0x00, 0x05], 5, 5),
      ([0xF4, 0xFF, 0xFF, 0xFF, 0xFF, 0xFF, 0xFF, 0xFF, 0xFF], -1, 9), ([0xFE], -2, 1),
      ([0xF8, 0x81, 0x2C], -300, 3), ([0xF8, 0xFF], 3, 2),
      ([0xF8, 0xF4, 0x80, 0x00, 0x00, 0x00, 0x00, 0x00, 0x00, 0x01], 9223372036854775807, 10)] :
      List (List Byte × Int × BitVec 4)).all decGives = true := by decide
theorem test_dec_invalid :
    respOf (exec (.dec ⟨64, 2⟩) (host [0xF8, 0x81, 0x2C])) = some ⟨.invalid, none, none, some 0, none⟩ ∧
    respOf (exec (.dec ⟨64, 3⟩) (host [0xF8, 0xF9, 0x04])) = some ⟨.invalid, none, none, some 0, none⟩ := by decide

theorem test_enc_bytes :
    bytesOf 3 (exec (.enc ⟨64, 2⟩ 300) (host [0xAA, 0xAA, 0xAA])) = some [some 0x81, some 0x2C, some 0xAA] ∧
    bytesOf 4 (exec (.enc ⟨64, 3⟩ 0xFFFFFFFFFFFFFF7F) (host [0xAA, 0xAA, 0xAA, 0xAA])) =
      some [some 0xF8, some 0x80, some 0x81, some 0xAA] := by decide
theorem test_enc_too_small :
    bytesOf 2 (exec (.enc ⟨64, 1⟩ 0xFFFFFFFFFFFFFFFC) (host [0xAA, 0xAA])) = some [some 0xAA, some 0xAA] ∧
    respOf (exec (.enc ⟨64, 1⟩ 128) (host [0xAA])) = some ⟨.insufficientSpace, none, none, some 0, none⟩ := by decide

/-- Section 2.7: the two admitted outcomes of `ENC [AA AA | AA]/2, -300`. -/
theorem test_enc_fail_write :
    enc .none (host [0xAA, 0xAA]).mem ⟨64, 2⟩ (-300) = .ok ⟨(host [0xAA, 0xAA]).mem, none⟩ ∧
    enc .marker (host [0xAA, 0xAA]).mem ⟨64, 2⟩ (-300) = .ok ⟨(host [0xF8, 0xAA]).mem, none⟩ := by decide

/-- The wire formats: values of 95_test_vectors.md 2.5 and 2.6. -/
theorem test_wire_positive :
    respOf (exec (.pos7 127) (host [])) = some ⟨.ok, none, none, some 1, some 127⟩ ∧
    respOf (exec (.pos14 300) (host [])) = some ⟨.ok, none, none, some 2, some 300⟩ ∧
    respOf (exec (.pos21 16384) (host [])) = some ⟨.ok, none, none, some 3, some 16384⟩ ∧
    respOf (exec (.pos28 2097152) (host [])) = some ⟨.ok, none, none, some 4, some 2097152⟩ ∧
    respOf (exec (.pos32 3 5) (host [])) = some ⟨.ok, none, none, some 5, some 5⟩ ∧
    respOf (exec (.pos64 0 0xFFFFFFFFFFFFFFFF) (host [])) = some ⟨.ok, none, none, some 9, some (-1)⟩ := by decide
theorem test_wire_negative :
    respOf (exec (.neg2 3) (host [])) = some ⟨.ok, none, none, some 1, some (-3)⟩ ∧
    respOf (exec (.negR 0 (.pos7 4)) (host [])) = some ⟨.ok, none, none, some 2, some (-4)⟩ ∧
    respOf (exec (.negR 0 (.neg2 1)) (host [])) = some ⟨.ok, none, none, some 2, some 1⟩ := by decide

/-! ## Witnesses: a state and operands that meet the hypotheses of each statement -/

theorem witness_StepRunsTheDecodedCommand :
    decodeCommand ⟨4, 0, limitPort 2, 64⟩ = .ok (.dec ⟨64, 2⟩) ∧
    ({ host [0x81, 0x2C] with unit := ⟨some ⟨4, 0, limitPort 2, 64⟩, none⟩ } : State).moves = [] ∧
    (host [] [.finish]).moves = .finish :: [] ∧ (host [] [.issue ⟨2, 7, limitPort 0, 0⟩]).moves = .issue ⟨2, 7, limitPort 0, 0⟩ :: [] := by
  decide

theorem witness_StepRunsATableWordPlacedForIt :
    decodeTableWord 8 5 = some (.enc ⟨0, 0⟩ 0) ∧ decodeTableWord 8 8 = some (.pos7 8) ∧
    decodeTableWord 80 0x000000000000000080F4F8 = some (.negR 0 (.pos64 0 0x8000000000000000)) := by decide

theorem witness_AnIdleUnitTakesACommandWithoutAWindow :
    ∀ op ∈ [(0 : BitVec 3), 1, 2], (op = 0 ∨ op = 1 ∨ op = 2) ∧
      (host [] [.issue ⟨op, 7, limitPort 0, 0⟩]).unit.cmd = none := by decide

/-- A unit with an ENC of 300 in progress, and another unit with a DEC of other bytes. -/
def busy : State :=
  { host [0xAA, 0xAA, 0x7F] [.finish] with
    unit := ⟨some ⟨5, 300, limitPort 2, 64⟩, none⟩
    others := [⟨some ⟨4, 0, limitPort 1, 66⟩, none⟩] }

theorem witness_StepKeepsMemoryCanonical :
    busy.MemoryCanonical ∧ (nextState? (step busy)).isSome = true := by
  unfold State.MemoryCanonical; decide

theorem witness_StepKeepsLaunchesLegal : busy.LaunchesLegal ∧ (nextState? (step busy)).isSome = true := by
  refine ⟨⟨fun c hc => ?_, ?_⟩, by decide⟩
  · have : c = ⟨5, 300, limitPort 2, 64⟩ ∨ c = ⟨4, 0, limitPort 1, 66⟩ := by simpa [inProgress, State.units, busy] using hc
    rcases this with h | h <;> subst h
    · exact ⟨⟨_, rfl⟩, fun W hW => by cases hW; decide⟩
    · exact ⟨⟨_, rfl⟩, fun W hW => by cases hW; decide⟩
  · show List.Pairwise _ [_, _]
    simp only [List.pairwise_cons, List.mem_singleton, forall_eq, List.not_mem_nil, false_imp_iff, implies_true,
      List.Pairwise.nil, and_true]
    decide

/-- An idle unit beside an idle one that has answered and one with a DEC in progress. -/
def idleBeside (ms : List Move) : State :=
  { host [0x7F] ms with others := [⟨none, some ⟨.ok, none, none, some 1, none⟩⟩, ⟨some ⟨4, 0, limitPort 1, 64⟩, none⟩] }

/-- A busy unit that finishes, an idle one that finishes, a switch, and an idle unit with no move left. -/
theorem witness_StepLeavesOtherUnitsAlone :
    ((nextState? (step busy)).isSome = true ∧ ∀ k ms, busy.moves ≠ .switch k :: ms) ∧
    ((nextState? (step (idleBeside [.finish]))).isSome = true ∧ ∀ k ms, (idleBeside [.finish]).moves ≠ .switch k :: ms) ∧
    ((nextState? (step (idleBeside [.switch 1]))).isSome = true ∧ (idleBeside [.switch 1]).moves = .switch 1 :: []) ∧
    ((nextState? (step (idleBeside []))).isSome = true ∧ (idleBeside []).moves = [] ∧ (idleBeside []).unit.cmd = none) := by
  refine ⟨⟨by decide, fun k ms h => (by cases h)⟩, ⟨by decide, fun k ms h => (by cases h)⟩, by decide, by decide⟩

/-- The last unit there is, and the first that is not. -/
theorem witness_ASwitchTurnsToTheNamedUnit :
    (idleBeside [.switch 1]).moves = .switch 1 :: [] ∧
    (idleBeside [.switch 1]).others[1]? = some ⟨some ⟨4, 0, limitPort 1, 64⟩, none⟩ ∧
    (idleBeside [.switch 2]).moves = .switch 2 :: [] ∧ (idleBeside [.switch 2]).others.length ≤ 2 := by decide

theorem witness_AnIdleUnitLeavesTheOthersToRunOn :
    (idleBeside [.finish]).unit.cmd = none ∧ (idleBeside [.finish]).moves = .finish :: [] ∧
    (idleBeside []).moves = [] ∧ (idleBeside []).others[1]? = some ⟨some ⟨4, 0, limitPort 1, 64⟩, none⟩ ∧
    (∀ v ∈ (idleBeside []).others.take 1, v.cmd = none) ∧
    (host []).moves = [] ∧ (∀ v ∈ (host []).others, v.cmd = none) := by decide

/-- The turn to a busy unit keeps its command, and the response of the idle one. -/
theorem test_turn_keeps_ports :
    (nextState? (step (idleBeside []))).map State.units =
      some [⟨some ⟨4, 0, limitPort 1, 64⟩, none⟩, ⟨none, some ⟨.ok, none, none, some 1, none⟩⟩, UnitPorts.idle] := by decide

theorem witness_EveryCommandIsAnswered :
    decodeCommand ⟨5, 300, limitPort 2, 64⟩ = .ok (.enc ⟨64, 2⟩ 300) ∧
    (⟨5, 300, limitPort 2, 64⟩ : Command).window? = some ⟨64, 2⟩ ∧ windowOwned (host [0xAA, 0xAA]).mem ⟨64, 2⟩ = true := by decide

/-- The first and the last byte of every row; also a witness of ClassbAnswersTheClassOfItsByte. -/
theorem witness_LeadingBytesFallInExactlyOneClass :
    ∀ row ∈ leadTable, row.matches (BitVec.ofNat 8 row.first) ∧ row.matches (BitVec.ofNat 8 row.last) := by
  unfold LeadRow.matches; decide

theorem witness_ClassbAnswersTheClassOfItsByte :
    (⟨.negR, 0xFC, 0xF8, 0xF8, 0xFB, 0, none⟩ : LeadRow) ∈ leadTable ∧
    (⟨.negR, 0xFC, 0xF8, 0xF8, 0xFB, 0, none⟩ : LeadRow).matches 0xFB ∧ (0x1FB : Word).setWidth 8 = (0xFB : Byte) := by
  unfold LeadRow.matches; decide

/-- Both ends of every row of the boundary table. -/
theorem witness_ClassvFollowsTheBoundaryTable :
    ∀ row ∈ valueTable, s64 (BitVec.ofInt 64 row.lo) = row.lo ∧ s64 (BitVec.ofInt 64 row.hi) = row.hi ∧
      row.lo ≤ row.hi := by decide

theorem witness_LenFollowsTheLengthTable :
    (⟨-2 ^ 63, -2 ^ 32, .negR, some .pos64, 10⟩ : ValueRow) ∈ valueTable ∧
    -2 ^ 63 ≤ s64 0x8000000000000000 ∧ s64 0x8000000000000000 ≤ -2 ^ 32 := by decide

theorem witness_ClassifiersAgreeOnWhatEncWrites :
    (nextState? (exec (.enc ⟨64, 2⟩ (-4)) (host [0xAA, 0xAA]))).isSome = true ∧ lenV (-4) ≤ 2 ∧ classV (-4) = .negR := by
  decide

/-- Every fixed-width row, with the least limit. -/
theorem witness_IdentReportsTheTableLength :
    ∀ row ∈ leadTable, row.fixlen ≠ none →
      windowOwned (host [BitVec.ofNat 8 row.last]).mem ⟨64, 1⟩ = true ∧
      (host [BitVec.ofNat 8 row.last]).mem.read 64 = some (BitVec.ofNat 8 row.last) ∧
      row.matches (BitVec.ofNat 8 row.last) := by
  unfold LeadRow.matches
  decide

/-- Every fixed-width row after the last marker, with the least limit. -/
theorem witness_IdentReportsTheNestedTag :
    ∀ row ∈ leadTable, row.fixlen ≠ none →
      windowOwned (host [0xFB, BitVec.ofNat 8 row.last]).mem ⟨64, 2⟩ = true ∧
      (host [0xFB, BitVec.ofNat 8 row.last]).mem.read 64 = some 0xFB ∧ isMarker 0xFB ∧
      (host [0xFB, BitVec.ofNat 8 row.last]).mem.read 65 = some (BitVec.ofNat 8 row.last) ∧
      row.matches (BitVec.ofNat 8 row.last) := by
  unfold LeadRow.matches isMarker
  decide

theorem witness_AMarkerAtTheLimitIsInvalid : (host [0xFB]).mem.read 64 = some 0xFB ∧ isMarker 0xFB := by
  unfold isMarker; decide

theorem witness_ASecondMarkerIsInvalid :
    windowOwned (host [0xF8, 0xFB]).mem ⟨64, 2⟩ = true ∧ (host [0xF8, 0xFB]).mem.read 64 = some 0xF8 ∧ isMarker 0xF8 ∧
    (host [0xF8, 0xFB]).mem.read 65 = some 0xFB ∧ isMarker 0xFB := by
  unfold isMarker; decide

theorem witness_IdentIsInvalidInNoOtherCase :
    (respOf (exec (.ident ⟨64, 0⟩) (host []))).map Response.status = some .invalid ∧
    (respOf (exec (.ident ⟨64, 1⟩) (host [0xF8]))).map Response.status = some .invalid ∧
    (respOf (exec (.ident ⟨64, 2⟩) (host [0xF8, 0xF8]))).map Response.status = some .invalid := by decide

/-- Windows that agree on byte 0 only, and windows that agree on two bytes under a marker. -/
theorem witness_IdentDependsOnTwoBytesAtMost :
    (nextState? (exec (.ident ⟨64, 2⟩) (host [0x81, 1]))).isSome = true ∧
    (nextState? (exec (.ident ⟨64, 2⟩) (host [0x81, 2]))).isSome = true ∧
    (host [0x81, 1]).mem.read 64 = (host [0x81, 2]).mem.read 64 ∧ ¬ isMarker 0x81 ∧
    (host [0xF8, 1, 2]).mem.read 64 = some 0xF8 ∧ isMarker 0xF8 ∧
    (host [0xF8, 1, 2]).mem.read 65 = (host [0xF8, 1, 3]).mem.read 65 := by
  unfold isMarker; decide

/-- IDENT fails; IDENT succeeds with a length above the limit; IDENT succeeds with a length at the limit. -/
theorem witness_DecFollowsIdent :
    respOf (exec (.ident ⟨64, 0⟩) (host [])) = some ⟨.invalid, none, none, some 0, none⟩ ∧
    respOf (exec (.ident ⟨64, 1⟩) (host [0x81])) = some ⟨.ok, some .pos14, none, some 2, none⟩ ∧
    respOf (exec (.ident ⟨64, 2⟩) (host [0x81, 0x2C])) = some ⟨.ok, some .pos14, none, some 2, none⟩ := by decide

theorem witness_DecRunsTheVarintOfTheWindow :
    windowOwned (host [0xF8, 0x81, 0x2C, 7]).mem ⟨64, 4⟩ = true ∧
    (host [0xF8, 0x81, 0x2C, 7]).mem.holds 64 [0xF8, 0x81, 0x2C, 7] ∧
    decodeVarint [0xF8, 0x81, 0x2C, 7] = .ok (.negR 0 (.pos14 300), [7]) := by
  unfold Memory.holds; decide

/-- A truncated varint, an empty window, and two markers with a limit beyond ten. -/
theorem witness_DecIsInvalidWhereNoVarintStands :
    (windowOwned (host [0x81]).mem ⟨64, 1⟩ = true ∧ (host [0x81]).mem.holds 64 [0x81] ∧
      decodeVarint [0x81] = .error .truncated) ∧
    ((host []).mem.holds 64 [] ∧ decodeVarint [] = .error .emptyWindow) ∧
    (windowOwned (host [0xF8, 0xF8, 0, 0, 0, 0, 0, 0, 0, 0, 0]).mem ⟨64, 11⟩ = true ∧
      (host [0xF8, 0xF8, 0, 0, 0, 0, 0, 0, 0, 0, 0]).mem.holds 64 [0xF8, 0xF8, 0, 0, 0, 0, 0, 0, 0, 0] ∧
      decodeVarint [0xF8, 0xF8, 0, 0, 0, 0, 0, 0, 0, 0] = .error .secondMarker) := by
  unfold Memory.holds; decide

/-- Every positive row, at its last leading byte and with its bytes at the limit. -/
theorem witness_DecAssemblesBigEndian :
    ∀ row ∈ leadTable, row.tag ≠ .neg2 → ∀ n, row.fixlen = some n → row.matches (BitVec.ofNat 8 row.last) ∧
      windowOwned (host (BitVec.ofNat 8 row.last :: List.replicate (n - 1) 0xFF)).mem ⟨64, n⟩ = true ∧
      (List.replicate (n - 1) (0xFF : Byte)).length + 1 = n ∧
      (host (BitVec.ofNat 8 row.last :: List.replicate (n - 1) 0xFF)).mem.holds 64
        (BitVec.ofNat 8 row.last :: List.replicate (n - 1) 0xFF) := by
  have h : ∀ row ∈ leadTable, row.tag ≠ .neg2 → ∀ n ∈ row.fixlen.toList, row.matches (BitVec.ofNat 8 row.last) ∧
      windowOwned (host (BitVec.ofNat 8 row.last :: List.replicate (n - 1) 0xFF)).mem ⟨64, n⟩ = true ∧
      (List.replicate (n - 1) (0xFF : Byte)).length + 1 = n ∧
      (host (BitVec.ofNat 8 row.last :: List.replicate (n - 1) 0xFF)).mem.holds 64
        (BitVec.ofNat 8 row.last :: List.replicate (n - 1) 0xFF) := by
    unfold LeadRow.matches Memory.holds; decide
  exact fun row hr ht n hn => h row hr ht n (by simp [hn])

theorem witness_DecOfNeg2IsMinusItsLowBits :
    ∀ b ∈ [(0xFC : Byte), 0xFD, 0xFE, 0xFF], windowOwned (host [b]).mem ⟨64, 1⟩ = true ∧
      (host [b]).mem.read 64 = some b ∧ b &&& 0xFC#8 = 0xFC#8 := by decide

theorem witness_DecNegatesTheNestedVarint :
    windowOwned (host [0xFB, 0x7F]).mem ⟨64, 2⟩ = true ∧ (host [0xFB, 0x7F]).mem.read 64 = some 0xFB ∧ isMarker 0xFB ∧
    (host [0xFB, 0x7F]).mem.read 65 = some 0x7F ∧ ¬ isMarker 0x7F ∧
    respOf (exec (.dec (Window.sub ⟨64, 2⟩ 1)) (host [0xFB, 0x7F])) = some ⟨.ok, none, none, some 1, some 127⟩ := by
  unfold isMarker; decide

/-- The magnitudes at which the clauses meet. -/
theorem witness_NegativeVarintsAnswerMinusTheirMagnitude :
    (FixedVarint.neg2 3).tag = .neg2 ∧
    (FixedVarint.pos64 0 0x8000000000000000).tag ≠ .neg2 ∧ (FixedVarint.pos64 0 0x8000000000000000).payload ≤ 2 ^ 63 ∧
    (FixedVarint.pos64 0 0x8000000000000001).tag ≠ .neg2 ∧ 2 ^ 63 < (FixedVarint.pos64 0 0x8000000000000001).payload := by
  decide

theorem witness_DecDependsOnItsVarintOnly :
    respOf (exec (.dec ⟨64, 3⟩) (host [0x81, 0x2C, 1])) = some ⟨.ok, none, none, some 2, some 300⟩ ∧
    (nextState? (exec (.dec ⟨64, 3⟩) (host [0x81, 0x2C, 2]))).isSome = true ∧
    ∀ i, i < (2 : BitVec 4).toNat →
      (host [0x81, 0x2C, 1]).mem.read (64 + i) = (host [0x81, 0x2C, 2]).mem.read (64 + i) := by decide

theorem witness_OnlyEncWrites :
    (∀ W val, Instr.dec ⟨64, 2⟩ ≠ .enc W val) ∧ (nextState? (exec (.dec ⟨64, 2⟩) (host [0x81, 0x2C]))).isSome = true ∧
    (nextState? (exec (.dec ⟨64, 1⟩) (host [0x81, 0x2C]))).isSome = true := by
  refine ⟨fun W val h => (by cases h), by decide, by decide⟩

/-- The least limit that fits, for a fixed-width value and for a NEG_R value. -/
theorem witness_EncWritesTheCanonicalVarint :
    windowOwned (host [0xAA, 0xAA]).mem ⟨64, 2⟩ = true ∧ lenV 300 ≤ 2 ∧ lenV (-4) ≤ 2 := by decide

theorem witness_EncFailsExactlyWhenTheLimitIsTooSmall : windowOwned (host [0xAA]).mem ⟨64, 1⟩ = true := by decide

/-- No byte of room; one byte of room, and two, for a NEG_R value. -/
theorem witness_AFailingEncLeavesAtMostTheMarker :
    windowOwned (host []).mem ⟨64, 0⟩ = true ∧ 0 < lenV 5 ∧
    windowOwned (host [0xAA]).mem ⟨64, 1⟩ = true ∧ 1 < lenV (-4) ∧ classV (-4) = .negR ∧
    windowOwned (host [0xAA, 0xAA]).mem ⟨64, 2⟩ = true ∧ 2 < lenV (-300) ∧ classV (-300) = .negR := by decide

theorem witness_EncOfTheMostNegativeValue :
    windowOwned (host [0, 0, 0, 0, 0, 0, 0, 0, 0, 0]).mem ⟨64, 10⟩ = true := by decide

theorem witness_EncNeverReadsTheWindow :
    (nextState? (exec (.enc ⟨64, 2⟩ 300) (host [1, 2]))).isSome = true ∧
    (nextState? (exec (.enc ⟨65, 2⟩ 300) (host [3, 4, 5]))).isSome = true ∧ lenV 300 ≤ 2 := by decide

theorem witness_DecAfterEncGivesTheValueBack :
    windowOwned (host [0, 0, 0, 0, 0, 0, 0, 0, 0, 0]).mem ⟨64, 10⟩ = true ∧ lenV 0x8000000000000000 ≤ 10 := by decide

theorem witness_LengthsAgree :
    windowOwned (host [0, 0]).mem ⟨64, 2⟩ = true ∧ lenV (-4) ≤ 2 ∧ classV (-4) = .negR ∧
    lenV 300 ≤ 2 ∧ classV 300 ≠ .negR := by decide

theorem witness_EncIsIdempotent : (nextState? (exec (.enc ⟨64, 2⟩ 300) (host [1, 2]))).isSome = true := by decide

/-- The least and the greatest magnitude of every fixed-width row. -/
theorem witness_MagOfPutIsTheMagnitude :
    ∀ row ∈ leadTable, ∀ n ∈ row.fixlen.toList,
      (row.tag = .neg2 → 1 ≤ u64 1 ∧ u64 3 ≤ 3) ∧
      (row.tag ≠ .neg2 → u64 0 < 2 ^ row.payload * 256 ^ (n - 1) ∧
        u64 (BitVec.ofNat 64 (2 ^ row.payload * 256 ^ (n - 1) - 1)) < 2 ^ row.payload * 256 ^ (n - 1)) := by decide

theorem witness_EncAtTheTagTransitions :
    windowOwned (host [0, 0, 0, 0, 0, 0, 0, 0, 0]).mem ⟨64, 9⟩ = true := by decide

theorem witness_DecodeOfEncodeIsTheInstruction :
    wellFormed (.dec ⟨64, 15⟩) = true ∧ wellFormed (.negR 3 (.pos64 3 0xFFFFFFFFFFFFFFFF)) = true := by decide

/-- A limit at the top of the narrowest port, which needs no truncation. -/
theorem witness_ThePortsCarryLimitsOfTheirWidth :
    decodeCommand ⟨4, 0, limitPort 15, 64⟩ = .ok (.dec ⟨64, 15⟩) ∧ (15 : Nat) < 16 := by decide

theorem witness_VarintBytesHaveOneReading :
    decodeVarint [0xFB, 0x04, 0xFF] = .ok (.negR 3 (.pos7 4), [0xFF]) ∧ wireBytes (.negR 3 (.pos7 4)) ≠ [] := by decide

theorem witness_LimitsBeyondTenAreAlike :
    windowOwned (host [0, 0, 0, 0, 0, 0, 0, 0, 0, 0, 0]).mem ⟨64, 10⟩ = true ∧
    windowOwned (host [0, 0, 0, 0, 0, 0, 0, 0, 0, 0, 0]).mem ⟨64, 11⟩ = true := by decide

theorem witness_ResponsesDependOnTheWindowAlone :
    (nextState? (exec (.dec ⟨64, 1⟩) (host [0x7F, 1]))).isSome = true ∧
    (nextState? (exec (.dec ⟨64, 1⟩) (host [0x7F, 2]))).isSome = true ∧
    windowOf (.dec ⟨64, 1⟩) = some ⟨64, 1⟩ ∧ windowOf (.len 5) = none ∧
    ∀ k, k < 1 → (host [0x7F, 1]).mem.read (64 + k) = (host [0x7F, 2]).mem.read (64 + k) := by decide

theorem witness_DisjointCommandsCommute :
    (host [1, 2, 0x7F]).MemoryCanonical ∧ conflict ⟨5, 300, limitPort 2, 64⟩ ⟨4, 0, limitPort 1, 66⟩ = false ∧
    (nextState? (perform ⟨5, 300, limitPort 2, 64⟩ (host [1, 2, 0x7F]))).isSome = true ∧
    (nextState? (perform ⟨4, 0, limitPort 1, 66⟩ (host [1, 2, 0x7F]))).isSome = true := by
  unfold State.MemoryCanonical; decide

theorem witness_ErrorsByOperation :
    respOf (exec (.classv 5) (host [])) = some ⟨.ok, some .pos7, none, none, none⟩ ∧
    respOf (exec (.classb 5) (host [])) = some ⟨.ok, some .pos7, none, none, none⟩ ∧
    respOf (exec (.len 5) (host [])) = some ⟨.ok, none, none, some 1, none⟩ ∧
    respOf (exec (.ident ⟨64, 0⟩) (host [])) = some ⟨.invalid, none, none, some 0, none⟩ ∧
    respOf (exec (.dec ⟨64, 0⟩) (host [])) = some ⟨.invalid, none, none, some 0, none⟩ ∧
    respOf (exec (.enc ⟨64, 0⟩ 5) (host [])) = some ⟨.insufficientSpace, none, none, some 0, none⟩ := by decide

theorem witness_StatusIsOkExactlyWhenLengthIsNotZero :
    windowOf (.ident ⟨64, 1⟩) = some ⟨64, 1⟩ ∧ (nextState? (exec (.ident ⟨64, 1⟩) (host [5]))).isSome = true ∧
    (nextState? (exec (.ident ⟨64, 0⟩) (host [5]))).isSome = true := by decide

theorem witness_ReservedOpIsRefused :
    (host [] [.issue ⟨6, 0, limitPort 0, 0⟩]).unit.cmd = none ∧ (host [] [.issue ⟨7, 0, limitPort 0, 0⟩]).moves = [.issue ⟨7, 0, limitPort 0, 0⟩] := by
  decide

/-- One byte too few. -/
theorem witness_AWindowNotOwnedIsRefused :
    windowOwned (host [1]).mem ⟨64, 2⟩ = false ∧ (⟨4, 0, limitPort 2, 64⟩ : Command).window? = some ⟨64, 2⟩ ∧
    (host [1] [.issue ⟨4, 0, limitPort 2, 64⟩]).unit.cmd = none := by decide

/-- A unit that is asked to run `c` beside another that runs `d`. -/
def beside (c d : Command) : State := { host [1, 2, 3, 4] [.issue c] with others := [⟨some d, none⟩] }

/-- An ENC on the last byte of a window in use; an ENC just beyond it, and a second reader of it. -/
theorem witness_AnOverlapWithAnEncIsRefused :
    (⟨5, 5, limitPort 1, 65⟩ : Command).window? = some ⟨65, 1⟩ ∧ windowOwned (beside ⟨5, 5, limitPort 1, 65⟩ ⟨4, 0, limitPort 2, 64⟩).mem ⟨65, 1⟩ = true ∧
    (⟨4, 0, limitPort 2, 64⟩ : Command) ∈ inProgress (beside ⟨5, 5, limitPort 1, 65⟩ ⟨4, 0, limitPort 2, 64⟩).others ∧
    (⟨4, 0, limitPort 2, 64⟩ : Command).window? = some ⟨64, 2⟩ ∧
    Window.overlaps ⟨64, 2⟩ ⟨65, 1⟩ = true ∧ Window.overlaps ⟨64, 2⟩ ⟨66, 1⟩ = false ∧
    refusal? (step (beside ⟨5, 5, limitPort 1, 65⟩ ⟨4, 0, limitPort 2, 64⟩)) = some .windowConflict ∧
    (nextState? (step (beside ⟨5, 5, limitPort 1, 66⟩ ⟨4, 0, limitPort 2, 64⟩))).isSome = true ∧
    (nextState? (step (beside ⟨4, 0, limitPort 2, 64⟩ ⟨4, 0, limitPort 2, 64⟩))).isSome = true := by decide

/-- The last byte of each window in progress, and the first byte after both. -/
theorem witness_TheHostKeepsOffWindowsInUse :
    (⟨5, 300, limitPort 2, 64⟩ : Command) ∈ inProgress busy.units ∧
    (⟨5, 300, limitPort 2, 64⟩ : Command).window? = some ⟨64, 2⟩ ∧
    (⟨4, 0, limitPort 1, 66⟩ : Command) ∈ inProgress busy.units ∧
    (⟨4, 0, limitPort 1, 66⟩ : Command).window? = some ⟨66, 1⟩ ∧
    (∀ c ∈ inProgress busy.units, ∀ W ∈ c.window?.toList, 67 < W.base ∨ W.base + W.limit ≤ 67) := by decide

/-- A host read of the window of a running DEC is refused, and of the byte after it is not (20_memory.md R60). -/
theorem test_peek_in_use :
    refusal? (step { busy with moves := [.peek 66] }) = some .hostTouchesWindow ∧
    (nextState? (step { busy with moves := [.peek 67] })).isSome = true := by decide

/-- An ENC of 300 abandoned after its second byte, a DEC abandoned, and no command in progress. -/
theorem witness_ResetAbandonsTheCommandInProgress :
    bytesOf 2 (step { busy with moves := [.reset 0b10] }) = some [some 0xAA, some 0x2C] ∧
    bytesOf 2 (step { host [0x81, 0x2C] [.reset 0b11] with unit := ⟨some ⟨4, 0, limitPort 2, 64⟩, none⟩ }) =
      some [some 0x81, some 0x2C] ∧
    (host [1] [.reset 0]).unit.cmd = none := by decide

end Sys2Proof.Tests
end

section
/-! SUPPORT. Noninterference of one instruction: two states that agree on the window get the same response, and only the
window's bytes can change. -/

namespace Sys2Proof.Machine

/-- The response of a command that leaves the buffer alone comes from how its pseudocode ended, not from the state. -/
theorem conclude_unit_eq {s s' t t' : State} {x : Except Exit Response} (h : s.conclude x = .next t)
    (h' : s'.conclude x = .next t') : t.unit = t'.unit := by
  obtain ⟨q, rfl, hq⟩ := conclude_next h
  obtain ⟨q', rfl, hq'⟩ := conclude_next h'
  have hqq : q = q' := by
    rcases hq with rfl | ⟨k, rfl, rfl⟩
    · simpa using hq'
    · simpa [eq_comm] using hq'
  rw [respond_unit, respond_unit, hqq]

/-- An IDENT that answers concludes with what `ident` returned. -/
theorem conclude_of_exec_ident {W : Window} {s t : State} (h : exec (.ident W) s = .next t) :
    s.conclude ((ident s.mem W).map fun i => Response.identified i.tag i.rtag i.length) = .next t := by
  simpa [exec, execIdent, owned_of_next rfl h] using h

/-- A DEC that answers concludes with what `dec` returned. -/
theorem conclude_of_exec_dec {W : Window} {s t : State} (h : exec (.dec W) s = .next t) :
    s.conclude ((dec s.mem W).map fun d => Response.decoded d.value d.length) = .next t := by
  simpa [exec, execDec, owned_of_next rfl h] using h

/-- The response of an ENC is a function of the value and the limit: it reads no byte. -/
theorem exec_enc_unit_eq {W : Window} {val : Word} {s s' t t' : State} (h : exec (.enc W val) s = .next t)
    (h' : exec (.enc W val) s' = .next t') : t.unit = t'.unit := by
  have ho := owned_of_next rfl h
  have ho' := owned_of_next rfl h'
  rcases Nat.lt_or_ge W.limit (lenV val) with hl | hl
  · rw [exec_enc_small ho hl] at h
    rw [exec_enc_small ho' hl] at h'
    cases h; cases h'; rfl
  · rw [exec_enc_fits ho hl] at h
    rw [exec_enc_fits ho' hl] at h'
    cases h; cases h'; rfl

/-- 10_state.md R20: the response is a function of the operands and the window's bytes. -/
theorem exec_unit_eq_of_agreeOn {i : Instr} {s s' t t' : State} (h : exec i s = .next t) (h' : exec i s' = .next t')
    (ha : ∀ W, windowOf i = some W → agreeOn s.mem s'.mem W) : t.unit = t'.unit := by
  cases hw : windowOf i with
  | none =>
    obtain ⟨r, -, hr⟩ := exec_no_window hw
    rw [hr] at h h'
    cases h; cases h'; rfl
  | some W =>
    have haW := ha W hw
    cases i <;> simp only [windowOf, reduceCtorEq, Option.some.injEq] at hw <;> subst hw
    case ident W =>
      have hs := conclude_of_exec_ident h
      rw [ident_congr haW] at hs
      exact conclude_unit_eq hs (conclude_of_exec_ident h')
    case dec W =>
      have hs := conclude_of_exec_dec h
      rw [dec_congr haW] at hs
      exact conclude_unit_eq hs (conclude_of_exec_dec h')
    case enc W val => exact exec_enc_unit_eq h h'

/-- 20_memory.md R41: an instruction other than ENC leaves memory as it was. -/
theorem exec_mem_of_not_enc {i : Instr} {s t : State} (h : exec i s = .next t) (hi : ∀ W val, i ≠ .enc W val) :
    t.mem = s.mem := by
  obtain ⟨-, -, -, hmem, -, -⟩ := exec_next h
  exact hmem hi

/-- 20_memory.md R42: no byte at or beyond the limit, or below the base, changes. -/
theorem exec_sameOutside_window {i : Instr} {W : Window} {s t : State} (hw : windowOf i = some W)
    (h : exec i s = .next t) : s.mem.sameOutside t.mem W.base W.limit := by
  intro x hx
  by_cases hi : ∃ V val, i = .enc V val
  · obtain ⟨V, val, rfl⟩ := hi
    obtain rfl : V = W := Option.some.inj hw
    exact exec_enc_outside h x (by omega)
  · rw [exec_mem_of_not_enc h fun V val he => hi ⟨V, val, he⟩]

/-- Settles O47, from the response's dependence on the window, the frame of a window, and the frame of an instruction
without one. -/
theorem responsesDependOnTheWindowAlone : Obligations.ResponsesDependOnTheWindowAlone := by
  intro i s s' t t' h h' ha
  refine ⟨exec_unit_eq_of_agreeOn h h' ha, fun W hw => exec_sameOutside_window hw h, fun hw => ?_⟩
  refine exec_mem_of_not_enc h fun V val hi => ?_
  subst hi
  cases hw

end Sys2Proof.Machine
end

section
/-! SUPPORT. One equation for the step on each kind of next move, and for a machine that has none left. -/

namespace Sys2Proof.Machine

variable {s : State} {c d : Command} {ms : List Move} {a : Nat} {b : Byte}

/-- A command of the six is performed as the instruction it selects. -/
theorem perform_of_decode {i : Instr} (h : decodeCommand c = .ok i) (s : State) : perform c s = exec i s := by
  simp only [perform, h]

theorem step_move {mv : Move} (hm : s.moves = mv :: ms) : step s = takeMove mv ms s := by
  simp only [step, act, hm]

theorem step_nil_busy (hc : s.unit.cmd = some c) (hm : s.moves = []) : step s = perform c s := by
  simp only [step, act, hm, runOn, hc]

theorem step_finish_busy (hc : s.unit.cmd = some c) (hm : s.moves = .finish :: ms) :
    step s = perform c { s with moves := ms } := by
  simp only [step_move hm, takeMove, hc]

/-- 20_memory.md R54: a command issued on a busy unit waits, and the one in progress is performed. -/
theorem step_issue_busy (hc : s.unit.cmd = some c) (hm : s.moves = .issue d :: ms) : step s = perform c s := by
  simp only [step_move hm, takeMove, hc]

theorem step_issue_idle (hc : s.unit.cmd = none) (hm : s.moves = .issue c :: ms) :
    step s = issue c { s with moves := ms } := by
  simp only [step_move hm, takeMove, hc]

theorem step_poke (hm : s.moves = .poke a b :: ms) :
    step s = if s.inUse a then .refused .hostTouchesWindow
      else .next { s with mem := s.mem.write a b, moves := ms } :=
  step_move hm

theorem step_peek (hm : s.moves = .peek a :: ms) :
    step s = if s.inUse a then .refused .hostTouchesWindow else .next { s with moves := ms } :=
  step_move hm

end Sys2Proof.Machine
end

section
/-! SUPPORT. The two invariants of the step: the canonical form of memory and the legality of the launches in
progress. -/

namespace Sys2Proof.Machine

/-- An instruction keeps memory canonical. -/
theorem exec_keeps_canonical {i : Instr} {s t : State} (h : exec i s = .next t) (hs : s.MemoryCanonical) :
    t.MemoryCanonical := by
  obtain ⟨-, -, -, -, hwf, -⟩ := exec_next h
  exact hwf hs

/-- A reset keeps memory canonical, whatever part of an abandoned ENC had landed. -/
theorem resetMem_wf {s : State} (landed : BitVec 10) (h : Memory.wf s.mem = true) :
    Memory.wf (resetMem landed s) = true := by
  unfold resetMem
  split
  · exact (abandoned_keeps landed _ _).1 h
  · exact h

/-- A reset takes no byte from the host. -/
theorem isSome_read_resetMem {s : State} (landed : BitVec 10) {a : Nat} (h : (s.mem.read a).isSome) :
    ((resetMem landed s).read a).isSome := by
  unfold resetMem
  split
  · exact (abandoned_keeps landed _ _).2 a h
  · exact h

/-- Settles O5, from what each kind of step does to memory: a command, a host write and a reset keep the form, and no
other step changes memory. -/
theorem stepKeepsMemoryCanonical : Obligations.StepKeepsMemoryCanonical := by
  intro s t hs h
  rcases step_cases h with ⟨c, i, ms, -, -, he⟩ | ⟨c, ms, -, hi⟩ | ⟨ms, rfl⟩ | ⟨k, u, ms, -, -, rfl⟩ |
    ⟨a, b, ms, -, rfl⟩ | ⟨landed, ms, rfl⟩
  · exact exec_keeps_canonical he hs
  · obtain ⟨rfl, -⟩ := issue_next hi
    exact hs
  · exact hs
  · exact hs
  · exact write_wf a b hs
  · exact resetMem_wf landed hs

/-- Memory in which the host keeps every byte it has keeps every window it owns. -/
theorem windowOwned_mono {m m' : Memory} {W : Window} (hm : ∀ a, (m.read a).isSome → (m'.read a).isSome)
    (h : windowOwned m W = true) : windowOwned m' W = true :=
  windowOwned_iff.2 fun i hi => hm _ (windowOwned_iff.1 h i hi)

/-- Launches stay legal when commands end or change places and the host keeps the bytes it owns. -/
theorem State.LaunchesLegal.mono {s t : State} (h : s.LaunchesLegal)
    (hcmd : (inProgress t.units).Subperm (inProgress s.units))
    (hmem : ∀ a, (s.mem.read a).isSome → (t.mem.read a).isSome) : t.LaunchesLegal := by
  obtain ⟨hlegal, hpair⟩ := h
  refine ⟨fun c hc => ?_, ?_⟩
  · obtain ⟨hdec, hown⟩ := hlegal c (hcmd.subset hc)
    exact ⟨hdec, fun W hW => windowOwned_mono hmem (hown W hW)⟩
  · obtain ⟨l, hperm, hsub⟩ := hcmd
    exact (hperm.pairwise_iff fun {c d} hcd => by rwa [conflict_comm]).1 (hpair.sublist hsub)

/-- A unit that has no command in progress adds none to those of the others. -/
theorem inProgress_idle_cons {u : UnitPorts} (hu : u.cmd = none) (us : List UnitPorts) :
    inProgress (u :: us) = inProgress us := by
  simp [inProgress, hu]

theorem inProgress_busy_cons {u : UnitPorts} {c : Command} (hu : u.cmd = some c) (us : List UnitPorts) :
    inProgress (u :: us) = c :: inProgress us := by
  simp [inProgress, hu]

/-- The commands of the others are in progress whatever this unit does. -/
theorem inProgress_others_subperm (s : State) : (inProgress s.others).Subperm (inProgress s.units) :=
  ((List.sublist_cons_self _ _).filterMap _).subperm

/-- A step that leaves this unit idle and the others as they are keeps the launches legal. -/
theorem State.LaunchesLegal.of_idle {s t : State} (h : s.LaunchesLegal) (hu : t.unit.cmd = none)
    (ho : t.others = s.others) (hmem : ∀ a, (s.mem.read a).isSome → (t.mem.read a).isSome) : t.LaunchesLegal := by
  refine h.mono ?_ hmem
  rw [State.units, inProgress_idle_cons hu, ho]
  exact inProgress_others_subperm s

/-- A launch that is accepted is legal beside the commands in progress. -/
theorem State.LaunchesLegal.issue {c : Command} {s t : State} (h : s.LaunchesLegal)
    (hi : issue c s = .next t) : t.LaunchesLegal := by
  obtain ⟨rfl, hdec, hown, hfree⟩ := issue_next hi
  obtain ⟨hlegal, hpair⟩ : State.LaunchesLegal { s with unit := UnitPorts.idle } := h.of_idle rfl rfl fun _ => id
  simp only [State.units, inProgress_idle_cons (u := UnitPorts.idle) rfl] at hlegal hpair
  simp only [State.LaunchesLegal, State.units, inProgress_busy_cons (u := ⟨some c, none⟩) rfl, List.mem_cons,
    forall_eq_or_imp, List.pairwise_cons]
  exact ⟨⟨⟨hdec, hown⟩, hlegal⟩, hfree, hpair⟩

/-- Settles O6: a step ends commands, lets units change places, takes no byte from the host, or adds a launch that was
tested against the commands in progress. -/
theorem stepKeepsLaunchesLegal : Obligations.StepKeepsLaunchesLegal := by
  intro s t hs h
  rcases step_cases h with ⟨c, i, ms, -, -, he⟩ | ⟨c, ms, -, hi⟩ | ⟨ms, rfl⟩ | ⟨k, u, ms, -, hu, rfl⟩ |
    ⟨a, b, ms, -, rfl⟩ | ⟨landed, ms, rfl⟩
  · obtain ⟨⟨r, hr⟩, ho, -, -, -, hmem⟩ := exec_next he
    exact hs.of_idle (by rw [hr]) ho hmem
  · exact State.LaunchesLegal.issue (s := { s with moves := ms }) hs hi
  · exact hs
  · exact hs.mono ((swap_perm hu).filterMap _).subperm fun _ => id
  · exact hs.mono (List.Subperm.refl _) fun _ => isSome_read_write
  · exact hs.of_idle rfl rfl fun _ => isSome_read_resetMem landed

end Sys2Proof.Machine
end

section
/-! SUPPORT. No step faults: each part of a step answers or refuses. -/

namespace Sys2Proof.Machine

theorem noFault_next (t : State) : NoFault (.next t) := fun _ h => by cases h

theorem noFault_refused (r : Refusal) : NoFault (.refused r) := fun _ h => by cases h

/-- An instruction answers, or is refused for its window; it makes no access a rule leaves undefined. -/
theorem noFault_exec (i : Instr) (s : State) : NoFault (exec i s) := by
  rcases exec_cases i s with ⟨t, h⟩ | ⟨h, -⟩ <;> rw [h]
  · exact noFault_next t
  · exact noFault_refused _

theorem noFault_perform (c : Command) (s : State) : NoFault (perform c s) := by
  unfold perform
  split
  · exact noFault_exec _ s
  · exact noFault_refused _

theorem noFault_issue (c : Command) (s : State) : NoFault (issue c s) := by
  unfold issue
  split
  · exact noFault_refused _
  · exact noFault_next _

theorem noFault_switchTo (k : Nat) (s : State) : NoFault (switchTo k s) := by
  unfold switchTo
  split
  · exact noFault_next _
  · exact noFault_refused _

theorem noFault_poke (a : Nat) (b : Byte) (s : State) : NoFault (poke a b s) := by
  unfold poke
  split
  · exact noFault_refused _
  · exact noFault_next _

theorem noFault_peek (a : Nat) (s : State) : NoFault (peek a s) := by
  unfold peek
  split
  · exact noFault_refused _
  · exact noFault_next _

theorem noFault_runOn (s : State) : NoFault (runOn s) := by
  unfold runOn
  split
  · exact noFault_perform _ s
  · split
    · exact noFault_switchTo _ s
    · exact noFault_next s

theorem noFault_takeMove (mv : Move) (ms : List Move) (s : State) : NoFault (takeMove mv ms s) := by
  cases mv with
  | issue c =>
    simp only [takeMove]
    split
    · exact noFault_perform _ s
    · exact noFault_issue c _
  | finish =>
    simp only [takeMove]
    split
    · exact noFault_perform _ _
    · exact noFault_next _
  | switch k => exact noFault_switchTo k _
  | poke a b => exact noFault_poke a b _
  | peek a => exact noFault_peek a _
  | reset landed => exact noFault_next _

/-- Settles O7, from the parts of a step. -/
theorem stepNeverFaults : Obligations.StepNeverFaults := by
  intro s
  unfold step act
  split
  · exact noFault_runOn s
  · exact noFault_takeMove _ _ s

end Sys2Proof.Machine
end

section
/-! SUPPORT. What an instruction does to one byte of memory: it writes a byte its operands fix, or leaves it as it was. -/

namespace Sys2Proof.Machine

/-- A failing ENC writes the marker or leaves the byte, in whatever memory. -/
theorem read_failedMem_eq_or_unchanged (fw : EncFailWrite) (m m' : Memory) (W : Window) (val : Word) (a : Nat) :
    (failedMem fw m W val).read a = (failedMem fw m' W val).read a ∨
      ((failedMem fw m W val).read a = m.read a ∧ (failedMem fw m' W val).read a = m'.read a) := by
  unfold failedMem
  split
  · by_cases ha : a = W.base
    · exact .inl (by simp only [read_write, if_pos ha])
    · exact .inr ⟨read_write_ne ha, read_write_ne ha⟩
  · exact .inr ⟨rfl, rfl⟩

theorem read_placeBytes_eq_or_unchanged (m m' : Memory) (base : Nat) (bs : List Byte) (a : Nat) :
    (placeBytes m base bs).read a = (placeBytes m' base bs).read a ∨
      ((placeBytes m base bs).read a = m.read a ∧ (placeBytes m' base bs).read a = m'.read a) := by
  by_cases ha : base ≤ a ∧ a < base + bs.length
  · exact .inl (by simp only [read_placeBytes, if_pos ha])
  · exact .inr ⟨by rw [read_placeBytes, if_neg ha], by rw [read_placeBytes, if_neg ha]⟩

/-- An instruction that answers in two states leaves the same byte at an address in both, or leaves both as they were:
what it writes, and where, comes from its operands. -/
theorem exec_read_eq_or_unchanged {i : Instr} {s s' t t' : State} (h : exec i s = .next t)
    (h' : exec i s' = .next t') (a : Nat) :
    t.mem.read a = t'.mem.read a ∨ (t.mem.read a = s.mem.read a ∧ t'.mem.read a = s'.mem.read a) := by
  by_cases hi : ∃ W val, i = .enc W val
  · obtain ⟨W, val, rfl⟩ := hi
    have ho := owned_of_next rfl h
    have ho' := owned_of_next rfl h'
    rcases Nat.lt_or_ge W.limit (lenV val) with hl | hl
    · rw [exec_enc_small ho hl] at h
      rw [exec_enc_small ho' hl] at h'
      cases h; cases h'
      exact read_failedMem_eq_or_unchanged _ _ _ W val a
    · rw [exec_enc_fits ho hl] at h
      rw [exec_enc_fits ho' hl] at h'
      cases h; cases h'
      exact read_placeBytes_eq_or_unchanged _ _ W.base _ a
  · have hne : ∀ W val, i ≠ .enc W val := fun W val he => hi ⟨W, val, he⟩
    exact .inr ⟨by rw [exec_mem_of_not_enc h hne], by rw [exec_mem_of_not_enc h' hne]⟩

/-- The byte an instruction leaves is a function of its operands and the byte it found there. -/
theorem exec_read_congr {i : Instr} {s s' t t' : State} (h : exec i s = .next t) (h' : exec i s' = .next t') {a : Nat}
    (ha : s.mem.read a = s'.mem.read a) : t.mem.read a = t'.mem.read a := by
  rcases exec_read_eq_or_unchanged h h' a with heq | ⟨hs, hs'⟩
  · exact heq
  · rw [hs, hs', ha]

/-- An instruction that answered answers again in every state in which the host still has its bytes. -/
theorem exec_next_of_keeps {i : Instr} {s s' t : State} (h : exec i s = .next t)
    (hm : ∀ a, (s.mem.read a).isSome → (s'.mem.read a).isSome) : ∃ t', exec i s' = .next t' := by
  rcases exec_cases i s' with ht | ⟨-, W, hw, ho⟩
  · exact ht
  · rw [windowOwned_mono hm (owned_of_next hw h)] at ho
    cases ho

/-- Settles O39: the second ENC writes where the first wrote, and the same bytes. -/
theorem encIsIdempotent : Obligations.EncIsIdempotent := by
  intro W val s t h
  obtain ⟨-, -, -, -, -, hmem⟩ := exec_next h
  obtain ⟨u, hu⟩ := exec_next_of_keeps h hmem
  refine ⟨u, hu, exec_enc_unit_eq hu h, fun a => ?_⟩
  rcases exec_read_eq_or_unchanged h hu a with heq | ⟨-, hsame⟩
  · exact heq.symm
  · exact hsame

end Sys2Proof.Machine
end

section
/-! SUPPORT. Commands whose windows do not conflict: neither sees or changes what the other does. -/

namespace Sys2Proof.Machine

/-- 20_memory.md R55: two commands conflict exactly when their windows share a byte and one of them is an ENC. -/
theorem conflict_iff {c d : Command} :
    conflict c d = true ↔ ∃ V W, c.window? = some V ∧ d.window? = some W ∧ V.overlaps W = true ∧
      (c.op = 5 ∨ d.op = 5) := by
  cases hc : c.window? <;> cases hd : d.window? <;> simp [conflict, hc, hd, Command.writes]

/-- A command leaves every byte of the window of a command it does not conflict with. -/
theorem exec_read_of_not_conflict {c d : Command} {i : Instr} {V : Window} {s t : State}
    (hcd : conflict c d = false) (hi : decodeCommand c = .ok i) (h : exec i s = .next t) (hV : d.window? = some V)
    {a : Nat} (hlo : V.base ≤ a) (hhi : a < V.base + V.limit) : t.mem.read a = s.mem.read a := by
  obtain ⟨hwin, henc⟩ := windowOf_decode hi
  by_cases hop : c.op = 5
  · obtain ⟨W, val, rfl⟩ := henc.2 hop
    have hW : c.window? = some W := hwin.symm
    have hno : W.overlaps V = false := by
      by_contra ho
      rw [conflict_iff.2 ⟨W, V, hW, hV, by simpa using ho, .inl hop⟩] at hcd
      cases hcd
    refine exec_sameOutside_window rfl h a ?_
    by_contra hin
    exact not_mem_of_not_overlaps hno (a := a) (by omega) (by omega) hlo hhi
  · rw [exec_mem_of_not_enc h fun W val he => hop (henc.1 ⟨W, val, he⟩)]

/-- A command leaves every byte outside its window. -/
theorem exec_read_of_not_in_window {c : Command} {i : Instr} {s t : State} (hi : decodeCommand c = .ok i)
    (h : exec i s = .next t) {a : Nat} (ha : ¬ ∃ V, c.window? = some V ∧ V.base ≤ a ∧ a < V.base + V.limit) :
    t.mem.read a = s.mem.read a := by
  obtain ⟨hwin, -⟩ := windowOf_decode hi
  cases hw : windowOf i with
  | none =>
    refine congrArg (Memory.read · a) (exec_mem_of_not_enc h fun W val he => ?_)
    subst he
    cases hw
  | some V =>
    refine exec_sameOutside_window hw h a ?_
    by_contra hin
    exact ha ⟨V, hwin ▸ hw, by omega, by omega⟩

/-- A command that does not conflict with another answers after it as it does alone. -/
theorem exec_after_not_conflict {c d : Command} {i j : Instr} {s sc sd : State} (hcd : conflict c d = false)
    (hi : decodeCommand c = .ok i) (hj : decodeCommand d = .ok j) (hc : exec i s = .next sc)
    (hd : exec j s = .next sd) : ∃ scd, exec j sc = .next scd ∧ scd.unit = sd.unit := by
  obtain ⟨-, -, -, -, -, hmem⟩ := exec_next hc
  obtain ⟨scd, hscd⟩ := exec_next_of_keeps hd hmem
  refine ⟨scd, hscd, exec_unit_eq_of_agreeOn hscd hd fun V hV k hk => ?_⟩
  obtain ⟨hwin, -⟩ := windowOf_decode hj
  exact exec_read_of_not_conflict hcd hi hc (hwin ▸ hV) (by omega) (by omega)

/-- Two commands that do not conflict leave the same byte at every address in either order: the one whose window does
not hold the address leaves it, or the other does. -/
theorem exec_read_comm {c d : Command} {i j : Instr} {s sc sd scd sdc : State} (hcd : conflict c d = false)
    (hi : decodeCommand c = .ok i) (hj : decodeCommand d = .ok j) (hc : exec i s = .next sc)
    (hd : exec j s = .next sd) (hscd : exec j sc = .next scd) (hsdc : exec i sd = .next sdc) (a : Nat) :
    scd.mem.read a = sdc.mem.read a := by
  by_cases ha : ∃ V, d.window? = some V ∧ V.base ≤ a ∧ a < V.base + V.limit
  · obtain ⟨V, hV, hlo, hhi⟩ := ha
    have hsc : sc.mem.read a = s.mem.read a := exec_read_of_not_conflict hcd hi hc hV hlo hhi
    calc scd.mem.read a = sd.mem.read a := exec_read_congr hscd hd hsc
      _ = sdc.mem.read a := (exec_read_of_not_conflict hcd hi hsdc hV hlo hhi).symm
  · have hsd : sd.mem.read a = s.mem.read a := exec_read_of_not_in_window hj hd ha
    calc scd.mem.read a = sc.mem.read a := exec_read_of_not_in_window hj hscd ha
      _ = sdc.mem.read a := exec_read_congr hc hsdc hsd.symm

/-- Settles O48: the responses agree since neither command changes the other's window, and the memories since they are
canonical and read alike. -/
theorem disjointCommandsCommute : Obligations.DisjointCommandsCommute := by
  intro c d s sc sd hs hcd hpc hpd
  obtain ⟨i, hi, hc⟩ := perform_next hpc
  obtain ⟨j, hj, hd⟩ := perform_next hpd
  obtain ⟨scd, hscd, hud⟩ := exec_after_not_conflict hcd hi hj hc hd
  obtain ⟨sdc, hsdc, huc⟩ := exec_after_not_conflict (conflict_comm c d ▸ hcd) hj hi hd hc
  have hcd_wf : scd.MemoryCanonical := exec_keeps_canonical hscd (exec_keeps_canonical hc hs)
  have hdc_wf : sdc.MemoryCanonical := exec_keeps_canonical hsdc (exec_keeps_canonical hd hs)
  refine ⟨scd, sdc, by rwa [perform_of_decode hj], by rwa [perform_of_decode hi], ?_, hud, huc⟩
  exact wf_ext hcd_wf hdc_wf (exec_read_comm hcd hi hj hc hd hscd hsdc)

end Sys2Proof.Machine
end

section
/-! SUPPORT. Limits of 10 or more: no command looks beyond the tenth byte. -/

namespace Sys2Proof.Machine

theorem memByte_limit {m : Memory} {base l l' i : Nat} (hi : i < l) (hi' : i < l') :
    memByte m ⟨base, l⟩ i = memByte m ⟨base, l'⟩ i := by
  simp only [memByte, if_pos hi, if_pos hi']

/-- `ident` looks at two bytes at most. -/
theorem ident_limit {m : Memory} {base l l' : Nat} (hl : 2 ≤ l) (hl' : 2 ≤ l') :
    ident m ⟨base, l⟩ = ident m ⟨base, l'⟩ := by
  simp only [ident, show l ≠ 0 by omega, show l' ≠ 0 by omega, show l - 1 ≠ 0 by omega, show l' - 1 ≠ 0 by omega,
    memByte_limit (m := m) (base := base) (i := 0) (show 0 < l by omega) (show 0 < l' by omega),
    memByte_limit (m := m) (base := base) (i := 1) (show 1 < l by omega) (show 1 < l' by omega)]

/-- The length `ident` answers is at most that of the longest encoding (41_length.md R134). -/
theorem ident_length_le {m : Memory} {W : Window} {i : Identified} (h : ident m W = .ok i) : i.length ≤ 10 := by
  obtain ⟨b0, -, -, ⟨hc, rfl⟩ | ⟨-, -, b1, -, hc, rfl⟩⟩ := ident_ok h
  · have := fixlen_bounds hc (classB_ne_invalid b0)
    simp only; omega
  · have := fixlen_bounds hc (classB_ne_invalid b1)
    simp only; omega

/-- `dec` looks at ten bytes at most. -/
theorem dec_limit {m : Memory} {base l l' : Nat} (hl : 10 ≤ l) (hl' : 10 ≤ l')
    (ho : windowOwned m ⟨base, l⟩ = true) : dec m ⟨base, l⟩ = dec m ⟨base, l'⟩ := by
  rcases dec_owned ho with ⟨hi, hd⟩ | ⟨i, hi, hlt, -⟩ | ⟨b0, bs, hc, hn, -, hh, -, hd⟩ |
    ⟨b0, b1, bs, hc, hc1, hn, -, hh, -, hd⟩
  · rw [ident_limit (l' := l') (by omega) (by omega)] at hi
    rw [hd]
    simp only [dec, hi]
  · have := ident_length_le hi
    simp only at hlt; omega
  · have hb := fixlen_bounds hc (classB_ne_invalid b0)
    rw [hd, dec_fixed_ok (W := ⟨base, l'⟩) hc hn (by simp only; omega) hh]
  · have hb := fixlen_bounds hc1 (classB_ne_invalid b1)
    rw [hd, dec_neg_ok (W := ⟨base, l'⟩) hc hc1 hn (by simp only; omega) hh]

/-- Settles O46. IDENT and DEC see the same bytes under both limits, and ENC fits in both windows. -/
theorem limitsBeyondTenAreAlike : Obligations.LimitsBeyondTenAreAlike := by
  intro base l l' val s hl hl' ho ho'
  have hlen := lenV_bounds val
  refine ⟨?_, ?_, ?_⟩
  · simp only [exec, execIdent, ho, ho', ident_limit (l := l) (l' := l') (by omega) (by omega)]
  · simp only [exec, execDec, ho, ho', dec_limit hl hl' ho]
  · rw [exec_enc_fits ho (by simp only; omega), exec_enc_fits ho' (by simp only; omega)]

end Sys2Proof.Machine
end

section
/-! SUPPORT. The statements about single steps: what is performed, what is launched, and what the host may touch. -/

namespace Sys2Proof.Machine

/-- Settles O2, by the equations of the step on a busy unit: each of the three performs the command. -/
theorem stepRunsTheDecodedCommand : Obligations.StepRunsTheDecodedCommand := by
  intro s c i hc hi
  refine ⟨fun ms hm => ?_, fun d ms hm => ?_, fun hm => ?_⟩
  · rw [step_finish_busy hc hm, perform_of_decode hi]
  · rw [step_issue_busy hc hm, perform_of_decode hi]
  · rw [step_nil_busy hc hm, perform_of_decode hi]

/-- On a window the host owns, a launch is refused for a conflict only. -/
theorem launchRefusal_owned {c : Command} {W : Window} {s : State} (hW : c.window? = some W)
    (ho : windowOwned s.mem W = true) :
    launchRefusal c s = if (inProgress s.others).any (conflict c) then some .windowConflict else none := by
  obtain ⟨i, hi⟩ := decode_of_window hW
  simp [launchRefusal, hi, hW, ho]

/-- Settles O53: on an owned window the launch is refused exactly when some command in progress conflicts with it. -/
theorem anOverlapWithAnEncIsRefused : Obligations.AnOverlapWithAnEncIsRefused := by
  intro c W s ms hW ho hu hm
  rw [step_issue_idle hu hm, issue, launchRefusal_owned (s := { s with moves := ms }) hW ho]
  refine ⟨fun ⟨d, V, hd, hV, hov, hop⟩ => ?_, fun hfree => ?_⟩
  · have hany : (inProgress s.others).any (conflict c) = true :=
      List.any_eq_true.2 ⟨d, hd, conflict_iff.2 ⟨W, V, hW, hV, overlaps_comm V W ▸ hov, hop⟩⟩
    simp only [hany, if_true]
  · have hnone : (inProgress s.others).any (conflict c) = false := by
      refine List.any_eq_false.2 fun d hd hcon => ?_
      obtain ⟨V', V, hV', hV, hov, hop⟩ := conflict_iff.1 hcon
      obtain rfl : W = V' := Option.some.inj (hW.symm.trans hV')
      obtain ⟨hc, hd⟩ := hfree d V hd hV (overlaps_comm W V ▸ hov)
      exact hop.elim hc hd
    simp only [hnone, Bool.false_eq_true, if_false]

/-- Settles O54: the addresses of the hypotheses are those in use, on which alone a host access turns. -/
theorem theHostKeepsOffWindowsInUse : Obligations.TheHostKeepsOffWindowsInUse := by
  intro s a b ms
  refine ⟨fun hin => ?_, fun hout => ?_⟩
  · have huse : s.inUse a = true := inUse_iff.2 hin
    exact ⟨fun hm => by rw [step_poke hm, if_pos huse], fun hm => by rw [step_peek hm, if_pos huse]⟩
  · have huse : ¬ s.inUse a = true := by
      intro h
      obtain ⟨c, W, hc, hW, hlo, hhi⟩ := inUse_iff.1 h
      have := hout c W hc hW
      omega
    exact ⟨fun hm => by rw [step_poke hm, if_neg huse], fun hm => by rw [step_peek hm, if_neg huse]⟩

end Sys2Proof.Machine
end

section
/-! SUPPORT. The two encodings read back: which instructions are varints and which are commands, and what a successful
reading of a varint consumed. -/

namespace Sys2Proof.Machine

/-- A fixed-width varint, a NEG_R varint, or a command. -/
theorem varint_or_command (i : Instr) :
    (∃ v, i = .ofFixed v) ∨ (∃ x v, i = .negR x v) ∨ ∃ c, encode i = .ports c := by
  cases i with
  | classv _ | classb _ | len _ | ident _ | dec _ | enc _ _ => exact .inr (.inr ⟨_, rfl⟩)
  | pos7 m => exact .inl ⟨.pos7 m, rfl⟩
  | pos14 m => exact .inl ⟨.pos14 m, rfl⟩
  | pos21 m => exact .inl ⟨.pos21 m, rfl⟩
  | pos28 m => exact .inl ⟨.pos28 m, rfl⟩
  | pos32 x m => exact .inl ⟨.pos32 x m, rfl⟩
  | pos64 x m => exact .inl ⟨.pos64 x m, rfl⟩
  | negR x n => exact .inr (.inl ⟨x, n, rfl⟩)
  | neg2 m => exact .inl ⟨.neg2 m, rfl⟩

theorem wireBytes_of_bytes {i : Instr} {bs : List Byte} (h : encode i = .bytes bs) : wireBytes i = bs := by
  simp only [wireBytes, h]

theorem wireBytes_of_ports {i : Instr} {c : Command} (h : encode i = .ports c) : wireBytes i = [] := by
  simp only [wireBytes, h]

/-- 30_encoding.md R85: the bytes that carry a varint, followed by anything, read as that varint. -/
theorem decodeVarint_of_encode {i : Instr} {bs : List Byte} (h : encode i = .bytes bs) (rest : List Byte) :
    decodeVarint (bs ++ rest) = .ok (i, rest) := by
  rw [← wireBytes_of_bytes h]
  rcases varint_or_command i with ⟨v, rfl⟩ | ⟨x, v, rfl⟩ | ⟨c, hc⟩
  · rw [wireBytes_ofFixed]; exact decodeVarint_fixed v rest
  · rw [wireBytes_negR]; exact decodeVarint_marker x v rest
  · rw [hc] at h; cases h

/-- The two low bits of a NEG_R marker say which marker it is (30_encoding.md R79, R83). -/
theorem markerByte_low_bits {b : Byte} (h : classB b = .negR) : markerByte (BitVec.ofNat 2 b.toNat) = b := by
  obtain ⟨-, -, -, -, -, -, hneg, -⟩ := classB_range b
  have := hneg.1 h
  rw [markerByte, ← BitVec.toNat_inj]
  simp only [BitVec.toNat_ofNat]
  omega

/-- 30_encoding.md R84: all a reading of a varint can answer. It is a fixed-width varint and one byte decided so, or a NEG_R
varint and two bytes did; it consumed exactly the varint's bytes, and its word is what `dec_fixed` assembles from them. -/
theorem decodeVarint_ok {bs rest : List Byte} {i : Instr} (h : decodeVarint bs = .ok (i, rest)) :
    (∃ b0 cs v, i = .ofFixed v ∧ bs = b0 :: (cs ++ rest) ∧ classB b0 = v.tag ∧ encodeFixed v = b0 :: cs ∧
      fixedWord v = decFixedOfBytes v.tag b0 cs) ∨
    (∃ b0 b1 cs x v, i = .negR x v ∧ bs = b0 :: b1 :: (cs ++ rest) ∧ classB b0 = .negR ∧ markerByte x = b0 ∧
      classB b1 = v.tag ∧ encodeFixed v = b1 :: cs ∧ fixedWord v = decFixedOfBytes v.tag b1 cs) := by
  unfold decodeVarint at h
  split at h
  · cases h
  · rename_i b0 r
    split at h
    · rename_i hmark
      split at h
      · cases h
      · rename_i b1 r'
        split at h
        · rename_i v r'' hv
          cases h
          obtain ⟨cs, rfl, -, htag, -, -, henc, hword⟩ := decodeFixed_ok hv
          exact .inr ⟨b0, b1, cs, _, v, rfl, rfl, hmark, markerByte_low_bits hmark, htag.symm, henc rfl, htag ▸ hword⟩
        · cases h
    · split at h
      · rename_i v r' hv
        cases h
        obtain ⟨cs, rfl, -, htag, -, -, henc, hword⟩ := decodeFixed_ok hv
        exact .inl ⟨b0, cs, v, rfl, rfl, htag.symm, henc rfl, htag ▸ hword⟩
      · cases h

/-- Settles O43: a reading consumed the varint's bytes, and those bytes read as the varint. -/
theorem varintBytesHaveOneReading : Obligations.VarintBytesHaveOneReading := by
  refine ⟨fun bs rest i h => ?_, fun i rest h => ?_⟩
  · rcases decodeVarint_ok h with ⟨b0, cs, v, rfl, rfl, -, henc, -⟩ | ⟨b0, b1, cs, x, v, rfl, rfl, -, hx, -, henc, -⟩
    · rw [wireBytes_ofFixed, henc, List.cons_append]
    · rw [wireBytes_negR, henc, hx, List.cons_append, List.cons_append]
  · cases he : encode i with
    | ports c => exact absurd (wireBytes_of_ports he) h
    | bytes bs => rw [wireBytes_of_bytes he]; exact decodeVarint_of_encode he rest

/-- A limit fits its port exactly when it is below 2^LIMIT_W: a limit below 16 always is. -/
theorem limitFits_iff {limit : Nat} : limitFits limit = true ↔ limit < 2 ^ Config.limitWidth := by
  simp only [limitFits, Bool.or_eq_true, decide_eq_true_eq]
  exact ⟨fun h => h.elim lt_two_pow_limitWidth id, .inr⟩

/-- A limit that fits its port stands on it as it is. -/
theorem toNat_limitPort_of_lt {limit : Nat} (h : limit < 2 ^ Config.limitWidth) : (limitPort limit).toNat = limit := by
  rw [toNat_limitPort, Nat.mod_eq_of_lt h]

/-- 10_state.md R27: what the ports select is well-formed, since `lim` has LIMIT_W bits. -/
theorem wellFormed_of_decodeCommand {c : Command} {i : Instr} (h : decodeCommand c = .ok i) : wellFormed i = true := by
  have hlim : limitFits c.lim.toNat = true := limitFits_iff.2 c.lim.isLt
  unfold decodeCommand at h
  split at h <;> cases h
  case h_1 | h_2 | h_3 => rfl
  case h_4 | h_5 | h_6 => exact hlim

/-- Settles O58, from the width of the lim port. -/
theorem thePortsCarryLimitsOfTheirWidth : Obligations.ThePortsCarryLimitsOfTheirWidth :=
  ⟨fun _ _ => wellFormed_of_decodeCommand, fun _ => toNat_limitPort_of_lt, fun _ => lt_two_pow_limitWidth⟩

/-- 30_encoding.md R90, R91: the ports of a well-formed command select it. -/
theorem decodeCommand_of_encode {i : Instr} {c : Command} (hi : wellFormed i = true) (h : encode i = .ports c) :
    decodeCommand c = .ok i := by
  have hlim : ∀ W : Window, limitFits W.limit = true → (limitPort W.limit).toNat = W.limit :=
    fun W hW => toNat_limitPort_of_lt (limitFits_iff.1 hW)
  cases i <;> cases h
  case classv => rfl
  case classb b => simp [decodeCommand]
  case len => rfl
  case ident W => simp only [decodeCommand, hlim W hi]; rfl
  case dec W => simp only [decodeCommand, hlim W hi]; rfl
  case enc W val => simp only [decodeCommand, hlim W hi]; rfl

/-- Settles O42: a command is read back from its ports, a varint from its bytes with nothing after them. -/
theorem decodeOfEncodeIsTheInstruction : Obligations.DecodeOfEncodeIsTheInstruction := by
  intro i hi
  cases he : encode i with
  | ports c => exact decodeCommand_of_encode hi he
  | bytes bs =>
    have hread := decodeVarint_of_encode he []
    rw [List.append_nil] at hread
    simp only [decode, hread]

/-- Settles O41: each word evaluated by the decoder. -/
theorem wordsOfTheTablesDecode : Obligations.WordsOfTheTablesDecode := by
  unfold Obligations.WordsOfTheTablesDecode
  decide

end Sys2Proof.Machine
end

section
/-! SUPPORT. The decoder over memory against the wire decoder: DEC of a window does what the varint that stands in it does,
and so a step runs a table word placed for it. -/

namespace Sys2Proof.Machine

/-- A fixed-width varint as an instruction answers its word and its length. -/
theorem exec_ofFixed (v : FixedVarint) (s : State) :
    exec (.ofFixed v) s = .next (s.respond (Response.decoded (fixedWord v) (fixlen v.tag))) := by
  cases v <;> rfl

/-- A NEG_R varint as an instruction answers the negation of the nested word, and one byte more. -/
theorem exec_negR (x : BitVec 2) (v : FixedVarint) (s : State) :
    exec (.negR x v) s = .next (s.respond (Response.decoded (neg64 (fixedWord v)) (1 + fixlen v.tag))) := rfl

/-- On a window the host owns, DEC answers with what `dec` found. -/
theorem exec_dec_of_ok {W : Window} {s : State} {d : Decoded} (ho : windowOwned s.mem W = true)
    (hd : dec s.mem W = .ok d) : exec (.dec W) s = .next (s.respond (Response.decoded d.value d.length)) := by
  simp [exec, execDec, ho, hd, Except.map]

/-- The bytes after the first of a fixed-width varint. -/
theorem length_tail_encodeFixed {v : FixedVarint} {b0 : Byte} {cs : List Byte} (h : encodeFixed v = b0 :: cs) :
    cs.length + 1 = fixlen v.tag := by
  rw [← length_encodeFixed v, h, List.length_cons]

/-- 43_decode.md R167 against 30_encoding.md R84: where the wire decoder reads a varint, DEC does what the varint does. -/
theorem exec_dec_eq_exec_varint {W : Window} {s : State} {bs rest : List Byte} {i : Instr}
    (ho : windowOwned s.mem W = true) (hl : bs.length ≤ W.limit) (hm : s.mem.holds W.base bs)
    (h : decodeVarint bs = .ok (i, rest)) : exec (.dec W) s = exec i s := by
  rcases decodeVarint_ok h with ⟨b0, cs, v, rfl, rfl, hc, henc, hword⟩ |
    ⟨b0, b1, cs, x, v, rfl, rfl, hmark, -, hc, henc, hword⟩
  · have hn := length_tail_encodeFixed henc
    simp only [List.length_cons, List.length_append] at hl
    have hd := dec_fixed_ok (by rw [hc]; exact tag_ne_negR v) (by rw [hc, hn]) (by rw [hc]; omega)
      (holds_append_left (bs := b0 :: cs) hm)
    rw [hc, ← hword] at hd
    rw [exec_dec_of_ok ho hd, exec_ofFixed]
  · have hn := length_tail_encodeFixed henc
    simp only [List.length_cons, List.length_append] at hl
    have hd := dec_neg_ok hmark (by rw [hc]; exact tag_ne_negR v) (by rw [hc, hn]) (by rw [hc]; omega)
      (holds_append_left (bs := b0 :: b1 :: cs) hm)
    rw [hc, ← hword] at hd
    rw [exec_dec_of_ok ho hd, exec_negR]

/-- An instruction read from bytes has no window, so it answers in every state. -/
theorem exec_varint_answers {bs rest : List Byte} {i : Instr} (h : decodeVarint bs = .ok (i, rest)) (s : State) :
    ∃ t, exec i s = .next t := by
  rcases decodeVarint_ok h with ⟨-, -, v, rfl, -⟩ | ⟨-, -, -, x, v, rfl, -⟩
  · exact ⟨_, exec_ofFixed v s⟩
  · exact ⟨_, exec_negR x v s⟩

/-- Settles O26, from what a reading of a varint consumed and what `dec` does where those bytes stand. -/
theorem decRunsTheVarintOfTheWindow : Obligations.DecRunsTheVarintOfTheWindow :=
  fun _ s _ _ _ ho hl hm h => ⟨exec_dec_eq_exec_varint ho hl hm h, exec_varint_answers h s⟩

/-- Memory the host put bytes into is owned there. -/
theorem windowOwned_of_placeBytes (m : Memory) (a : Nat) (bs : List Byte) :
    windowOwned (placeBytes m a bs) ⟨a, bs.length⟩ = true := by
  refine windowOwned_iff.2 fun i hi => ?_
  rw [placeBytes_holds m a bs i hi, List.getElem?_eq_getElem hi]
  rfl

@[simp] theorem length_tableBytes (nbits w : Nat) : (tableBytes nbits w).length = 10 := by
  simp [tableBytes, Config.maxLen]

/-- A table word is the instruction its encoding decodes to. -/
theorem decode_of_decodeTableWord {nbits w : Nat} {i : Instr} (h : decodeTableWord nbits w = some i) :
    decode (tableEncoded nbits w) = .ok i := by
  unfold decodeTableWord at h
  split at h
  · cases h; assumption
  · cases h

/-- A table word is read as an `op`, or as the bytes of a varint with room for the longest one. (log 5) -/
theorem tableEncoded_cases (nbits w : Nat) :
    (∃ c, tableEncoded nbits w = .ports c) ∨ tableEncoded nbits w = .bytes (tableBytes nbits w) := by
  unfold tableEncoded
  split
  · exact .inl ⟨_, rfl⟩
  · exact .inr rfl

/-- The command that a placed varint is run by is a DEC of its bytes. (log 3) -/
theorem decodeCommand_placed {bs : List Byte} (h : bs.length < 16) :
    decodeCommand ⟨4, 0, limitPort bs.length, 0⟩ = .ok (.dec ⟨0, bs.length⟩) := by
  simp only [decodeCommand, toNat_limitPort_of_lt (lt_two_pow_limitWidth h)]
  rfl

theorem withFetchWord_of_ports {nbits w : Nat} {c : Command} (h : tableEncoded nbits w = .ports c) (s : State) :
    s.withFetchWord nbits w = { s with unit := ⟨some c, none⟩, moves := .finish :: s.moves } := by
  simp only [State.withFetchWord, placeTableWord, h]

theorem withFetchWord_of_bytes {nbits w : Nat} {bs : List Byte} (h : tableEncoded nbits w = .bytes bs) (s : State) :
    s.withFetchWord nbits w =
      { s with
        mem := placeBytes s.mem 0 bs
        unit := ⟨some ⟨4, 0, limitPort bs.length, 0⟩, none⟩
        moves := .finish :: s.moves } := by
  simp only [State.withFetchWord, placeTableWord, h]

/-- Settles O3: a word read as an `op` is the command performed; the bytes of a varint are decoded where they were placed. -/
theorem stepRunsATableWordPlacedForIt : Obligations.StepRunsATableWordPlacedForIt := by
  intro s nbits w i hi
  have hdec := decode_of_decodeTableWord hi
  rcases tableEncoded_cases nbits w with ⟨c, hc⟩ | hb
  · rw [withFetchWord_of_ports hc, step_finish_busy rfl rfl]
    rw [hc] at hdec
    exact perform_of_decode hdec _
  · rw [withFetchWord_of_bytes hb, step_finish_busy rfl rfl]
    rw [hb] at hdec
    simp only [decode] at hdec
    split at hdec
    · rename_i rest hread
      cases hdec
      rw [perform_of_decode (decodeCommand_placed (by simp))]
      exact exec_dec_eq_exec_varint (windowOwned_of_placeBytes _ _ _) le_rfl (placeBytes_holds _ _ _) hread
    · cases hdec

end Sys2Proof.Machine
end

section
/-! SUPPORT. Magnitudes and the words that stand for them: the words of the wire formats, and `mag` of the bytes of `put`. -/

namespace Sys2Proof.Machine

/-- 43_decode.md R163: the word of a positive varint is its magnitude. -/
theorem u64_fixedWord_of_pos {v : FixedVarint} (h : v.tag ≠ .neg2) : u64 (fixedWord v) = v.payload := by
  cases v with
  | neg2 m => exact absurd rfl h
  | pos64 x m => rfl
  | pos7 m | pos14 m | pos21 m | pos28 m | pos32 x m =>
    have := m.isLt
    simp only [fixedWord, FixedVarint.payload, u64, BitVec.toNat_setWidth]
    omega

/-- 43_decode.md R164: the word of a NEG_2 varint is the negation of a word that holds its two payload bits. -/
theorem fixedWord_of_neg2 {v : FixedVarint} (h : v.tag = .neg2) :
    ∃ w, fixedWord v = neg64 w ∧ u64 w = v.payload ∧ u64 w ≤ 3 := by
  cases v with
  | pos7 | pos14 | pos21 | pos28 | pos32 | pos64 => cases h
  | neg2 m =>
    have := m.isLt
    have hw : u64 (m.setWidth 64) = m.toNat := by simp only [u64, BitVec.toNat_setWidth]; omega
    exact ⟨m.setWidth 64, rfl, hw, by omega⟩

/-- A word below 2^63 reads the same signed and unsigned. -/
theorem s64_eq_u64 {w : Word} (h : u64 w < 2 ^ 63) : s64 w = u64 w := by
  simp only [s64, u64, BitVec.toInt_eq_toNat_cond] at *
  rw [if_pos (by omega)]

/-- 43_decode.md R170: up to 2^63 the negation of a magnitude is its negative. -/
theorem s64_neg64_of_le {w : Word} (h : u64 w ≤ 2 ^ 63) : s64 (neg64 w) = -(u64 w : Int) := by
  simp only [neg64_eq_neg, s64, u64, BitVec.toInt_eq_toNat_cond, BitVec.toNat_neg] at *
  split <;> omega

/-- 43_decode.md R170: the negation of a magnitude wraps. -/
theorem u64_neg64_of_pos {w : Word} (h : 0 < u64 w) : u64 (neg64 w) = 2 ^ 64 - u64 w := by
  simp only [neg64_eq_neg, u64, BitVec.toNat_neg] at *
  omega

/-- Settles O28: exec answers the word of the varint, which is its magnitude. -/
theorem positiveVarintsAnswerTheirMagnitude : Obligations.PositiveVarintsAnswerTheirMagnitude := by
  refine fun s => ⟨fun m => ⟨_, exec_ofFixed (.pos7 m) s, ?_⟩, fun m => ⟨_, exec_ofFixed (.pos14 m) s, ?_⟩,
    fun m => ⟨_, exec_ofFixed (.pos21 m) s, ?_⟩, fun m => ⟨_, exec_ofFixed (.pos28 m) s, ?_⟩,
    fun x m => ⟨_, exec_ofFixed (.pos32 x m) s, ?_⟩, fun x m => exec_ofFixed (.pos64 x m) s⟩
  all_goals exact u64_fixedWord_of_pos nofun

/-- Settles O29, from the nested word and the two readings of `neg64`. -/
theorem negativeVarintsAnswerMinusTheirMagnitude : Obligations.NegativeVarintsAnswerMinusTheirMagnitude := by
  refine fun s => ⟨fun m => ⟨_, exec_ofFixed (.neg2 m) s, ?_⟩, fun x n => ⟨_, exec_negR x n s, fun h => ?_, fun h hle => ?_,
    fun h hlt => ?_⟩⟩
  · obtain ⟨w, hneg, hw, hle⟩ := fixedWord_of_neg2 (v := .neg2 m) rfl
    rw [hneg, s64_neg64_of_le (by omega), hw]
    rfl
  · obtain ⟨w, hneg, hw, hle⟩ := fixedWord_of_neg2 h
    rw [hneg, neg64_neg64, s64_eq_u64 (by omega), hw]
  · have hw := u64_fixedWord_of_pos h
    rw [s64_neg64_of_le (by omega), hw]
  · have hw := u64_fixedWord_of_pos h
    rw [u64_neg64_of_pos (by omega), hw]

/-- The magnitudes for which `put` of a fixed-width tag is defined (30_encoding.md R82): those of its payload bits. -/
def magBound : Tag → Nat
  | .pos7    => 2 ^ 7
  | .pos14   => 2 ^ 14
  | .pos21   => 2 ^ 21
  | .pos28   => 2 ^ 28
  | .pos32   => 2 ^ 32
  | .pos64   => 2 ^ 64
  | .neg2    => 4
  | .negR    => 0
  | .invalid => 0

/-- 30_encoding.md R81, R82: the bytes of `put` carry the magnitude. -/
theorem put_carries {t : Tag} {m : Word} (h : u64 m < magBound t) :
    ∃ b0 cs, put t m = .ok (b0 :: cs) ∧ magNat t b0 cs = u64 m := by
  cases t with
  | negR | invalid => exact absurd h (Nat.not_lt_zero _)
  | pos7 | pos14 | pos21 | pos28 | pos32 | pos64 | neg2 =>
    refine ⟨_, _, rfl, ?_⟩
    simp [magNat, magBound, beNat, byteAt, byteOf] at h ⊢
    omega

/-- Every fixed-width row has the length of its tag, and its range lies in that of its tag. -/
theorem row_of_fixlen {row : LeadRow} {n : Nat} (hrow : row ∈ leadTable) (hn : row.fixlen = some n) :
    row.tag ≠ .negR ∧ row.tag ≠ .invalid ∧ n = fixlen row.tag ∧
      (row.tag ≠ .neg2 → 2 ^ row.payload * 256 ^ (n - 1) = magBound row.tag) := by
  have table : ∀ row ∈ leadTable, ∀ n ∈ row.fixlen, row.tag ≠ .negR ∧ row.tag ≠ .invalid ∧ n = fixlen row.tag ∧
      (row.tag ≠ .neg2 → 2 ^ row.payload * 256 ^ (n - 1) = magBound row.tag) := by decide
  exact table row hrow n hn

/-- Settles O40: `put` gives the row's length of bytes, and what `mag` computes from them is the magnitude. -/
theorem magOfPutIsTheMagnitude : Obligations.MagOfPutIsTheMagnitude := by
  intro row n m mem W hrow hn hneg hpos
  obtain ⟨hR, hI, rfl, hbound⟩ := row_of_fixlen hrow hn
  have hm : u64 m < magBound row.tag := by
    by_cases h2 : row.tag = .neg2
    · rw [h2]; exact Nat.lt_succ_of_le (hneg h2).2
    · rw [← hbound h2]; exact hpos h2
  obtain ⟨b0, cs, hput, hmag⟩ := put_carries hm
  obtain ⟨bs, hput', hlen⟩ := put_fixed hR hI m
  obtain rfl : b0 :: cs = bs := Except.ok.inj (hput.symm.trans hput')
  refine ⟨_, hput, hlen, fun hh hl => ?_⟩
  rw [mag_of_holds hR hI hlen hl hh, hmag, u64, BitVec.ofNat_toNat, BitVec.setWidth_eq]

end Sys2Proof.Machine
end

section
/-! SUPPORT. Commands at their ports: which are refused, which are taken, what answers them, and the codes of the answer. -/

namespace Sys2Proof.Machine

/-- 30_encoding.md R94: the codes 6 and 7 select no instruction. -/
theorem decodeCommand_reserved {c : Command} (h : c.op = 6 ∨ c.op = 7) : decodeCommand c = .error .reservedOp := by
  rcases h with h | h <;> simp [decodeCommand, h]

/-- 30_encoding.md R91: the codes 0, 1 and 2 select an instruction without a window. -/
theorem decodeCommand_without_window {c : Command} (h : c.op = 0 ∨ c.op = 1 ∨ c.op = 2) :
    (∃ i, decodeCommand c = .ok i) ∧ c.window? = none := by
  rcases h with h | h | h <;> simp [decodeCommand, Command.window?, h]

/-- Settles O51: the launch is refused before memory is asked for anything. -/
theorem reservedOpIsRefused : Obligations.ReservedOpIsRefused := by
  intro c s ms hop hu hm
  rw [step_issue_idle hu hm]
  simp only [issue, launchRefusal, decodeCommand_reserved hop]

/-- Settles O4: without a window nothing can refuse the launch. -/
theorem anIdleUnitTakesACommandWithoutAWindow : Obligations.AnIdleUnitTakesACommandWithoutAWindow := by
  intro c s ms hop hu hm
  obtain ⟨⟨i, hi⟩, hw⟩ := decodeCommand_without_window hop
  rw [step_issue_idle hu hm]
  simp only [issue, launchRefusal, hi, hw]

/-- Settles O9: only a window that is not the host's stops an instruction, and one that answers gives one response. -/
theorem everyCommandIsAnswered : Obligations.EveryCommandIsAnswered := by
  intro c i s hi ho
  rw [perform_of_decode hi]
  rcases exec_cases i s with ⟨t, ht⟩ | ⟨-, W, hW, hno⟩
  · obtain ⟨⟨r, hr⟩, hothers, hmoves, -⟩ := exec_next ht
    exact ⟨t, r, ht, hr, hothers, hmoves⟩
  · obtain ⟨hwin, -⟩ := windowOf_decode hi
    have := ho W (hwin ▸ hW)
    rw [hno] at this
    cases this

/-- Settles O45: the codes by evaluation, the driven fields for each kind of response. -/
theorem portsCarryTheCodes : Obligations.PortsCarryTheCodes := by
  refine ⟨rfl, rfl, fun e => ?_, fun t => rfl, fun n => rfl, fun t r n => ?_, fun v n => rfl⟩
  · cases e <;> rfl
  · by_cases h : t = .negR
    · subst h; rfl
    · simp [Response.identified, Response.driven, Response.ports, statusCode, h]

end Sys2Proof.Machine
end

section
/-! SUPPORT. The leading-byte table against the tests of CLASSB: a row's mask and match, its range and its tag say the same of
a byte. -/

namespace Sys2Proof.Machine

/-- 30_encoding.md R71: a row's mask and match test passes the bytes of its range. -/
theorem LeadRow.matches_iff_range : ∀ row ∈ leadTable, ∀ b : Byte,
    row.matches b ↔ row.first ≤ b.toNat ∧ b.toNat ≤ row.last := by
  unfold LeadRow.matches
  decide

/-- 30_encoding.md R86: the class of a byte is a row's tag exactly when the byte is in the row's range. -/
theorem classB_eq_tag_iff_range {row : LeadRow} (hrow : row ∈ leadTable) (b : Byte) :
    classB b = row.tag ↔ row.first ≤ b.toNat ∧ b.toNat ≤ row.last := by
  obtain ⟨r7, r14, r21, r28, r32, r64, rR, r2⟩ := classB_range b
  have hb := b.isLt
  simp only [leadTable, List.mem_cons, List.not_mem_nil, or_false] at hrow
  rcases hrow with rfl | rfl | rfl | rfl | rfl | rfl | rfl | rfl
  · simpa using r7
  · exact r14
  · exact r21
  · exact r28
  · exact r32
  · exact r64
  · exact r2.trans ⟨fun h => ⟨h, Nat.le_of_lt_succ hb⟩, And.left⟩
  · exact rR

/-- 40_classify.md R112: the tests of CLASSB answer a row's tag exactly for the bytes that pass the row's test. -/
theorem LeadRow.matches_iff_classB {row : LeadRow} (hrow : row ∈ leadTable) (b : Byte) :
    row.matches b ↔ classB b = row.tag :=
  (matches_iff_range row hrow b).trans (classB_eq_tag_iff_range hrow b).symm

/-- 30_encoding.md R71: the table has one row for each tag, and none for the verdict INVALID. -/
theorem exists_leadRow {t : Tag} (ht : t ≠ .invalid) : ∃ row ∈ leadTable, row.tag = t := by
  cases t with
  | invalid => exact absurd rfl ht
  | pos7 | pos14 | pos21 | pos28 | pos32 | pos64 | neg2 | negR => decide

theorem leadRow_eq_of_tag_eq : ∀ row ∈ leadTable, ∀ row' ∈ leadTable, row'.tag = row.tag → row' = row := by
  decide

/-- Settles O10: the byte's row is that of its class, and two rows that pass it have that one tag. -/
theorem leadingBytesFallInExactlyOneClass : Obligations.LeadingBytesFallInExactlyOneClass := by
  refine ⟨fun b => ?_, fun row hrow b => ⟨LeadRow.matches_iff_range row hrow b, fun hm => ?_⟩⟩
  · obtain ⟨row, hrow, htag⟩ := exists_leadRow (classB_ne_invalid b)
    exact ⟨row, hrow, (LeadRow.matches_iff_classB hrow b).2 htag.symm⟩
  · have hclass := (LeadRow.matches_iff_classB hrow b).1 hm
    refine ⟨hclass, fun row' hrow' hm' => leadRow_eq_of_tag_eq row hrow row' hrow' ?_⟩
    rw [← hclass, (LeadRow.matches_iff_classB hrow' b).1 hm']

/-- 40_classify.md R110: CLASSB answers the class of its byte. -/
theorem exec_classb (b : Byte) (s : State) :
    exec (.classb b) s = .next (s.respond (Response.classified (classB b))) := rfl

/-- 30_encoding.md R91: the code 1 selects CLASSB of the low byte of `val`, whatever the other ports carry. -/
theorem decodeCommand_classb (val : Word) (lim : BitVec Config.limitWidth) (win : Nat) :
    decodeCommand ⟨1, val, lim, win⟩ = .ok (.classb (val.setWidth 8)) := rfl

/-- Settles O11: the class of the byte is the row's tag, and the ports select the low byte of `val`. -/
theorem classbAnswersTheClassOfItsByte : Obligations.ClassbAnswersTheClassOfItsByte := by
  intro row hrow b s hm
  refine ⟨?_, fun val lim win hval => ?_⟩
  · rw [exec_classb, (LeadRow.matches_iff_classB hrow b).1 hm]
    rfl
  · rw [perform_of_decode (decodeCommand_classb val lim win), hval]

end Sys2Proof.Machine
end

section
/-! SUPPORT. The boundary table of values: its rows follow one another without a gap, and each lies between the magnitudes at
which the class changes. -/

namespace Sys2Proof.Machine

/-- The least magnitude of a positive class (40_classify.md R115); of the tags `posclass` does not answer, a number no
magnitude reaches. -/
def magFloor : Tag → Nat
  | .pos7    => 0
  | .pos14   => 2 ^ 7
  | .pos21   => 2 ^ 14
  | .pos28   => 2 ^ 21
  | .pos32   => 2 ^ 28
  | .pos64   => 2 ^ 32
  | .neg2    => 2 ^ 64
  | .negR    => 2 ^ 64
  | .invalid => 2 ^ 64

/-- 40_classify.md R115, R117: a magnitude between the bounds of a positive class is of that class. -/
theorem posclass_of_mag_range {m : Word} {t : Tag} (hfloor : magFloor t ≤ u64 m) (hbound : u64 m < magBound t) :
    posclass m = t := by
  simp only [posclass]
  cases t <;> simp only [magFloor, magBound] at hfloor hbound
  case pos7 => rw [if_pos hbound]
  case pos14 => rw [if_neg (by omega), if_pos hbound]
  case pos21 => rw [if_neg (by omega), if_neg (by omega), if_pos hbound]
  case pos28 => rw [if_neg (by omega), if_neg (by omega), if_neg (by omega), if_pos hbound]
  case pos32 => rw [if_neg (by omega), if_neg (by omega), if_neg (by omega), if_neg (by omega), if_pos hbound]
  case pos64 => rw [if_neg (by omega), if_neg (by omega), if_neg (by omega), if_neg (by omega), if_neg (by omega)]
  case neg2 | negR | invalid => omega

/-- 40_classify.md R117: the rows of negative values from -4 down, that of -3 to -1, and the rows of the others. -/
theorem valueRow_cases : ∀ row ∈ valueTable,
    (row.tag = .negR ∧ row.hi ≤ -4 ∧ ∀ t ∈ row.nested, magFloor t ≤ -row.hi ∧ -row.lo < magBound t) ∨
    (row.tag = .neg2 ∧ row.nested = none ∧ -3 ≤ row.lo ∧ row.hi ≤ -1) ∨
    (row.nested = none ∧ magFloor row.tag ≤ row.lo ∧ row.hi < magBound row.tag) := by
  decide

/-- 40_classify.md R117: the class of a value, and of its magnitude where the row has a nested tag, are those of its row. -/
theorem class_of_valueRow {row : ValueRow} (hrow : row ∈ valueTable) {val : Word} (hlo : row.lo ≤ s64 val)
    (hhi : s64 val ≤ row.hi) : classV val = row.tag ∧ ∀ t, row.nested = some t → posclass (neg64 val) = t := by
  rcases valueRow_cases row hrow with ⟨htag, hle, hnested⟩ | ⟨htag, hnone, hge, hle⟩ | ⟨hnone, hfloor, hbound⟩
  · have hmag := u64_neg64_of_neg (w := val) (by omega)
    refine ⟨by rw [htag, classV_eq_negR]; omega, fun t ht => ?_⟩
    obtain ⟨hfloor, hbound⟩ := hnested t ht
    exact posclass_of_mag_range (by omega) (by omega)
  · exact ⟨by rw [htag, classV_eq_neg2]; omega, fun t ht => by rw [hnone] at ht; cases ht⟩
  · have hmag := s64_of_nonneg (w := val) (by omega)
    exact ⟨(classV_of_nonneg (by omega)).trans (posclass_of_mag_range (by omega) (by omega)), fun t ht => by rw [hnone] at ht; cases ht⟩

/-- Rows that follow one another without a gap cover every number from the first row's least to the last row's greatest. -/
theorem exists_row_of_isChain {row : ValueRow} {rows : List ValueRow} {x : Int}
    (hchain : (row :: rows).IsChain fun r r' => r'.lo = r.hi + 1) (hlo : row.lo ≤ x)
    (hhi : x ≤ ((row :: rows).getLast (List.cons_ne_nil _ _)).hi) :
    ∃ r ∈ row :: rows, r.lo ≤ x ∧ x ≤ r.hi := by
  induction rows generalizing row with
  | nil => exact ⟨row, List.mem_cons_self, hlo, hhi⟩
  | cons next rows ih =>
    obtain ⟨hnext, hchain⟩ := List.isChain_cons_cons.1 hchain
    rcases le_or_gt x row.hi with hx | hx
    · exact ⟨row, List.mem_cons_self, hlo, hx⟩
    · obtain ⟨r, hr, hin⟩ := ih hchain (by omega) hhi
      exact ⟨r, List.mem_cons_of_mem _ hr, hin⟩

/-- 40_classify.md R117: every value lies in a row. -/
theorem exists_valueRow (val : Word) : ∃ row ∈ valueTable, row.lo ≤ s64 val ∧ s64 val ≤ row.hi := by
  obtain ⟨hlo, hhi⟩ := s64_bounds val
  have hchain : valueTable.IsChain fun r r' => r'.lo = r.hi + 1 := by decide
  exact exists_row_of_isChain hchain hlo (Int.le_sub_one_of_lt hhi)

/-- 40_classify.md R113: CLASSV answers the class of its value. -/
theorem exec_classv (val : Word) (s : State) :
    exec (.classv val) s = .next (s.respond (Response.classified (classV val))) := rfl

/-- Settles O12, from the cover of the values by the rows and the class of a row's values. -/
theorem classvFollowsTheBoundaryTable : Obligations.ClassvFollowsTheBoundaryTable := by
  refine ⟨exists_valueRow, fun row hrow val s hlo hhi => ?_⟩
  obtain ⟨hclass, hnested⟩ := class_of_valueRow hrow hlo hhi
  refine ⟨?_, hnested⟩
  rw [exec_classv, hclass]
  rfl

end Sys2Proof.Machine
end

section
/-! SUPPORT. The classes of the bytes ENC writes: the canonical varint begins with a byte of the value's class. -/

namespace Sys2Proof.Machine

/-- 40_classify.md R116: the canonical varint of a value is a NEG_R varint over the narrowest varint of its magnitude, or a
fixed-width varint of the value's tag. -/
theorem canonical_cases (val : Word) :
    (classV val = .negR ∧ canonical val = .negR 0 (narrowest (neg64 val))) ∨
    (classV val ≠ .negR ∧ ∃ v, canonical val = .ofFixed v ∧ v.tag = classV val) := by
  unfold canonical
  split_ifs with h4 h1
  · exact .inl ⟨classV_eq_negR.2 h4, rfl⟩
  · exact .inr ⟨mt classV_eq_negR.1 h4, .neg2 _, rfl, (classV_eq_neg2.2 ⟨by omega, h1⟩).symm⟩
  · exact .inr ⟨mt classV_eq_negR.1 h4, narrowest val, rfl, by rw [tag_narrowest, classV_of_nonneg (by omega)]⟩

/-- 44_encode.md R196: an ENC that fits leaves the canonical varint of the value at the start of its window. -/
theorem exec_enc_holds_canonical {W : Window} {val : Word} {s t : State} (h : exec (.enc W val) s = .next t)
    (hl : lenV val ≤ W.limit) : t.mem.holds W.base (wireBytes (canonical val)) := by
  rw [exec_enc_fits (owned_of_next rfl h) hl] at h
  cases h
  rw [← encBytes_canonical]
  exact placeBytes_holds _ _ _

/-- 40_classify.md R119: where a fixed-width varint stands, the first byte has its class. -/
theorem read_class_of_holds_encodeFixed {m : Memory} {a : Nat} {v : FixedVarint} (h : m.holds a (encodeFixed v)) :
    ∃ b, m.read a = some b ∧ classB b = v.tag := by
  obtain ⟨b, bs, he, hb⟩ := class_encode v
  rw [he] at h
  exact ⟨b, holds_head h, hb⟩

/-- Settles O14: what stands in the window is the canonical varint, NEG_R over the narrowest varint or fixed-width. -/
theorem classifiersAgreeOnWhatEncWrites : Obligations.ClassifiersAgreeOnWhatEncWrites := by
  intro W val s t h hl
  have hm := exec_enc_holds_canonical h hl
  rcases canonical_cases val with ⟨hR, hc⟩ | ⟨hR, v, hc, hv⟩
  · rw [hc, wireBytes_negR] at hm
    refine ⟨⟨markerByte 0, holds_head hm, by rw [hR]; decide⟩, fun _ => ?_⟩
    rw [← tag_narrowest]
    exact read_class_of_holds_encodeFixed (holds_tail hm)
  · rw [hc, wireBytes_ofFixed] at hm
    rw [← hv]
    exact ⟨read_class_of_holds_encodeFixed hm, fun h' => absurd (hv.symm.trans h') hR⟩

end Sys2Proof.Machine
end

section
/-! SUPPORT. The length table of values: a row's length is that of its fixed-width tag, or one more than that of the tag
nested in it. -/

namespace Sys2Proof.Machine

theorem lenV_of_negR {val : Word} (h : classV val = .negR) : lenV val = 1 + fixlen (posclass (neg64 val)) := if_pos h

theorem lenV_of_ne_negR {val : Word} (h : classV val ≠ .negR) : lenV val = fixlen (classV val) := if_neg h

/-- 41_length.md R134: the length of a row is that of its varint, of the marker and the nested varint in a NEG_R row. -/
theorem valueRow_length_cases : ∀ row ∈ valueTable,
    (row.tag = .negR ∧ ∃ t ∈ row.nested, row.length = 1 + fixlen t) ∨
    (row.tag ≠ .negR ∧ row.length = fixlen row.tag) := by
  decide

/-- 41_length.md R134: the encoded length of a value is the length of its row. -/
theorem lenV_of_valueRow {row : ValueRow} (hrow : row ∈ valueTable) {val : Word} (hlo : row.lo ≤ s64 val)
    (hhi : s64 val ≤ row.hi) : lenV val = row.length := by
  obtain ⟨hclass, hnested⟩ := class_of_valueRow hrow hlo hhi
  rcases valueRow_length_cases row hrow with ⟨htag, t, ht, hlength⟩ | ⟨htag, hlength⟩
  · rw [lenV_of_negR (hclass.trans htag), hnested t ht, hlength]
  · rw [lenV_of_ne_negR (hclass ▸ htag), hclass, hlength]

/-- 41_length.md R130: LEN answers the encoded length of its value. -/
theorem exec_len (val : Word) (s : State) : exec (.len val) s = .next (s.respond (Response.measured (lenV val))) := rfl

/-- Settles O13, from the cover of the values by the rows and the encoded length of a row's values. -/
theorem lenFollowsTheLengthTable : Obligations.LenFollowsTheLengthTable := by
  refine ⟨exists_valueRow, by decide, fun row hrow val s hlo hhi => ?_⟩
  rw [exec_len, lenV_of_valueRow hrow hlo hhi]
  rfl

end Sys2Proof.Machine
end

section
/-! SUPPORT. The identifier, one equation for each of its answers, and what IDENT and DEC make of them. -/

namespace Sys2Proof.Machine

section

variable {m m' : Memory} {W : Window} {s : State} {b0 b1 : Byte}

/-- 42_identify.md R141: an empty window is Invalid. -/
theorem ident_of_limit_zero (hl : W.limit = 0) : ident m W = .error (.raise .invalid) := if_pos hl

/-- 42_identify.md R143: a leading byte of a fixed-width class has the class's length, whatever the limit. -/
theorem ident_of_fixed (hl : 1 ≤ W.limit) (h0 : m.read W.base = some b0) (hc : classB b0 ≠ .negR) :
    ident m W = .ok ⟨classB b0, .invalid, fixlen (classB b0)⟩ := by
  have hb0 : memByte m W 0 = .ok b0 := memByte_of_read hl h0
  simp [ident, show W.limit ≠ 0 by omega, hb0, hc, classB_ne_invalid b0]

/-- 42_identify.md R144: a NEG_R marker at the limit is Invalid. -/
theorem ident_of_marker_at_limit (hl : W.limit = 1) (h0 : m.read W.base = some b0) (hc : classB b0 = .negR) :
    ident m W = .error (.raise .invalid) := by
  have hb0 : memByte m W 0 = .ok b0 := memByte_of_read (by omega) h0
  simp [ident, hl, hb0, hc]

/-- 42_identify.md R145: two NEG_R markers in a row are Invalid, whatever the limit. -/
theorem ident_of_two_markers (h0 : m.read W.base = some b0) (hc : classB b0 = .negR)
    (h1 : m.read (W.base + 1) = some b1) (hc1 : classB b1 = .negR) : ident m W = .error (.raise .invalid) := by
  obtain hl | hl | hl : W.limit = 0 ∨ W.limit = 1 ∨ 2 ≤ W.limit := by omega
  · exact ident_of_limit_zero hl
  · exact ident_of_marker_at_limit hl h0 hc
  · have hb0 : memByte m W 0 = .ok b0 := memByte_of_read (by omega) h0
    have hb1 : memByte m W 1 = .ok b1 := memByte_of_read hl h1
    simp [ident, hb0, hc, hb1, hc1]

/-- 42_identify.md R147: under a NEG_R marker the next byte gives the nested tag, and its length the length. -/
theorem ident_of_nested (hl : 2 ≤ W.limit) (h0 : m.read W.base = some b0) (hc : classB b0 = .negR)
    (h1 : m.read (W.base + 1) = some b1) (hc1 : classB b1 ≠ .negR) :
    ident m W = .ok ⟨.negR, classB b1, 1 + fixlen (classB b1)⟩ := by
  have hb0 : memByte m W 0 = .ok b0 := memByte_of_read (by omega) h0
  have hb1 : memByte m W 1 = .ok b1 := memByte_of_read hl h1
  simp [ident, show W.limit ≠ 0 by omega, show W.limit - 1 ≠ 0 by omega, hb0, hc, hb1, hc1, classB_ne_invalid b1]

/-- 42_identify.md R150: `ident` looks at byte 0, and at byte 1 only under a NEG_R marker. -/
theorem ident_congr_of_read (h0 : m.read W.base = m'.read W.base)
    (h1 : ∀ b0, m.read W.base = some b0 → classB b0 = .negR → m.read (W.base + 1) = m'.read (W.base + 1)) :
    ident m W = ident m' W := by
  have hbyte0 : memByte m W 0 = memByte m' W 0 := by simp only [memByte, Nat.add_zero, h0]
  cases hb0 : memByte m W 0 with
  | error e => simp only [ident, ← hbyte0, hb0]
  | ok b0 =>
    by_cases hc : classB b0 = .negR
    · have hbyte1 : memByte m W 1 = memByte m' W 1 := by
        simp only [memByte, h1 b0 (memByte_eq_ok.1 hb0).2 hc]
      simp only [ident, hbyte0, hbyte1]
    · simp only [ident, ← hbyte0, hb0, ne_eq, hc, not_false_eq_true, if_true]

/-- On a window the host owns, IDENT answers with what `ident` found. -/
theorem exec_ident_of_ok {i : Identified} (ho : windowOwned s.mem W = true) (hi : ident s.mem W = .ok i) :
    exec (.ident W) s = .next (s.respond (Response.identified i.tag i.rtag i.length)) := by
  simp [exec, execIdent, ho, hi, Except.map]

/-- On a window the host owns, IDENT reports Invalid when `ident` raises it. -/
theorem reportsInvalid_ident (ho : windowOwned s.mem W = true) (hi : ident s.mem W = .error (.raise .invalid)) :
    reportsInvalid s (exec (.ident W) s) := by
  have hexec : exec (.ident W) s = .next (s.raise .invalid) := by simp [exec, execIdent, ho, hi, Except.map]
  exact hexec ▸ reportsInvalid_raise s

/-- 43_decode.md R161: DEC reports Invalid when `ident` raises it. -/
theorem reportsInvalid_dec (ho : windowOwned s.mem W = true) (hi : ident s.mem W = .error (.raise .invalid)) :
    reportsInvalid s (exec (.dec W) s) := by
  have hexec : exec (.dec W) s = .next (s.raise .invalid) := by simp [exec, execDec, dec, ho, hi, Except.map]
  exact hexec ▸ reportsInvalid_raise s

end

/-- Settles O15: a window of limit 0 asks nothing of memory, and its identifier raises Invalid. -/
theorem identOfAnEmptyWindowIsInvalid : Obligations.IdentOfAnEmptyWindowIsInvalid :=
  fun _ _ => reportsInvalid_ident rfl (ident_of_limit_zero rfl)

/-- Settles O16: the byte's class is the row's tag, which is not NEG_R, and the row's length is that of its tag. -/
theorem identReportsTheTableLength : Obligations.IdentReportsTheTableLength := by
  intro row hrow n hn W s b0 ho hl h0 hm
  obtain ⟨hR, -, rfl, -⟩ := row_of_fixlen hrow hn
  have hc := (LeadRow.matches_iff_classB hrow b0).1 hm
  rw [exec_ident_of_ok ho (ident_of_fixed hl h0 (hc ▸ hR)), hc]
  simp only [Response.identified, if_neg hR]
  rfl

/-- Settles O17: the class of the byte after the marker is the row's tag, and the row's length is that of its tag. -/
theorem identReportsTheNestedTag : Obligations.IdentReportsTheNestedTag := by
  intro row hrow n hn W s b0 b1 ho hl h0 hm0 h1 hm1
  obtain ⟨hR, -, rfl, -⟩ := row_of_fixlen hrow hn
  have hc1 := (LeadRow.matches_iff_classB hrow b1).1 hm1
  rw [exec_ident_of_ok ho (ident_of_nested hl h0 ((isMarker_iff b0).1 hm0) h1 (hc1 ▸ hR)), hc1]
  rfl

/-- Settles O18: the one byte of the window is the marker, so the host owns the window and the identifier raises Invalid. -/
theorem aMarkerAtTheLimitIsInvalid : Obligations.AMarkerAtTheLimitIsInvalid := by
  intro W s b0 hl h0 hm0
  have ho : windowOwned s.mem W = true := by
    refine windowOwned_iff.2 fun i hi => ?_
    obtain rfl : i = 0 := by omega
    exact Option.isSome_of_eq_some h0
  have hi := ident_of_marker_at_limit hl h0 ((isMarker_iff b0).1 hm0)
  exact ⟨reportsInvalid_ident ho hi, reportsInvalid_dec ho hi⟩

/-- Settles O19: the identifier raises Invalid at every limit, and DEC with it. -/
theorem aSecondMarkerIsInvalid : Obligations.ASecondMarkerIsInvalid := by
  intro W s b0 b1 ho h0 hm0 h1 hm1
  have hi := ident_of_two_markers h0 ((isMarker_iff b0).1 hm0) h1 ((isMarker_iff b1).1 hm1)
  exact ⟨reportsInvalid_ident ho hi, reportsInvalid_dec ho hi⟩

/-- Settles O21: the identifier finds the same in both memories, and the response comes from what it found. -/
theorem identDependsOnTwoBytesAtMost : Obligations.IdentDependsOnTwoBytesAtMost := by
  intro W s s' t t' h h' h0 h1
  have hs := conclude_of_exec_ident h
  rw [ident_congr_of_read h0 fun b0 hb0 hc => h1 ⟨b0, hb0, (isMarker_iff b0).2 hc⟩] at hs
  exact conclude_unit_eq hs (conclude_of_exec_ident h')

end Sys2Proof.Machine
end

section
/-! SUPPORT. The round trip: the canonical varint of a value, as an instruction and in a window, answers the value. -/

namespace Sys2Proof.Machine

/-- 43_decode.md R164: the NEG_2 varint of the two low bits of the magnitude of -3, -2 or -1 has the value as its word. -/
theorem fixedWord_neg2_of_classV {val : Word} (h : classV val = .neg2) :
    fixedWord (.neg2 ((neg64 val).setWidth 2)) = val := by
  have hrange := classV_eq_neg2.1 h
  have hmag := u64_neg64_of_neg (w := val) (by omega)
  have hbits : ((neg64 val).setWidth 2).setWidth 64 = neg64 val := by
    simp only [u64] at hmag
    rw [← BitVec.toNat_inj, BitVec.toNat_setWidth, BitVec.toNat_setWidth]
    omega
  rw [fixedWord, hbits, neg64_neg64]

/-- 40_classify.md R116, 43_decode.md R163 to R165: the canonical varint of a value answers the value and its encoded length. -/
theorem exec_canonical (val : Word) (s : State) :
    exec (canonical val) s = .next (s.respond (Response.decoded val (lenV val))) := by
  unfold canonical
  split_ifs with h4 h1
  · rw [exec_negR, word_narrowest, neg64_neg64, tag_narrowest, lenV_of_negR (classV_eq_negR.2 h4)]
  · have hc : classV val = .neg2 := classV_eq_neg2.2 ⟨by omega, h1⟩
    have hn : lenV val = 1 := by rw [lenV_of_ne_negR (by simp [hc]), hc]; rfl
    have hexec := exec_ofFixed (.neg2 ((neg64 val).setWidth 2)) s
    rw [fixedWord_neg2_of_classV hc] at hexec
    rw [hn]
    exact hexec
  · have hc : classV val = posclass val := classV_of_nonneg (by omega)
    rw [exec_ofFixed, word_narrowest, tag_narrowest, lenV_of_ne_negR (mt classV_eq_negR.1 h4), hc]

/-- The wire decoder reads the canonical varint of a value from its bytes. -/
theorem decodeVarint_canonical (val : Word) : decodeVarint (wireBytes (canonical val)) = .ok (canonical val, []) := by
  rcases canonical_cases val with ⟨-, hc⟩ | ⟨-, v, hc, -⟩
  · rw [hc, wireBytes_negR]
    simpa using decodeVarint_marker 0 (narrowest (neg64 val)) []
  · rw [hc, wireBytes_ofFixed]
    simpa using decodeVarint_fixed v []

/-- 43_decode.md R173: DEC of a window that holds the canonical varint of a value answers the value and its encoded length. -/
theorem exec_dec_of_holds_canonical {W : Window} {val : Word} {s : State} (ho : windowOwned s.mem W = true)
    (hl : lenV val ≤ W.limit) (hm : s.mem.holds W.base (wireBytes (canonical val))) :
    exec (.dec W) s = .next (s.respond (Response.decoded val (lenV val))) := by
  have hlen : (wireBytes (canonical val)).length ≤ W.limit := by rwa [← encBytes_canonical, length_encBytes]
  rw [exec_dec_eq_exec_varint ho hlen hm (decodeVarint_canonical val), exec_canonical]

/-- Settles O37: ENC leaves the window the host's and the canonical varint of the value in it, of which DEC answers the
value. -/
theorem decAfterEncGivesTheValueBack : Obligations.DecAfterEncGivesTheValueBack := by
  intro W val s ho hl
  have henc := exec_enc_fits ho hl
  obtain ⟨-, -, -, -, -, hkeeps⟩ := exec_next henc
  exact ⟨_, henc, exec_dec_of_holds_canonical (windowOwned_mono hkeeps ho) hl (exec_enc_holds_canonical henc hl)⟩

end Sys2Proof.Machine
end

section
/-! SUPPORT. The decoder and the identifier: when DEC answers, how much it consumes, and which bytes its answer comes from. -/

namespace Sys2Proof.Machine

/-- On a window the host owns, DEC reports Invalid when `dec` raises it. -/
theorem reportsInvalid_of_dec {W : Window} {s : State} (ho : windowOwned s.mem W = true)
    (hd : dec s.mem W = .error (.raise .invalid)) : reportsInvalid s (exec (.dec W) s) := by
  have hexec : exec (.dec W) s = .next (s.raise .invalid) := by simp [exec, execDec, ho, hd, Except.map]
  exact hexec ▸ reportsInvalid_raise s

/-- 43_decode.md R162: a limit below the length `ident` answers is Invalid for `dec`. -/
theorem dec_of_limit_lt {m : Memory} {W : Window} {i : Identified} (hi : ident m W = .ok i) (hl : W.limit < i.length) :
    dec m W = .error (.raise .invalid) := by
  simp only [dec, hi, if_pos hl]

/-- 43_decode.md R162: within the limit `dec` consumes the length `ident` answers. -/
theorem dec_of_length_le {m : Memory} {W : Window} {i : Identified} (ho : windowOwned m W = true)
    (hi : ident m W = .ok i) (hl : i.length ≤ W.limit) : ∃ v, dec m W = .ok ⟨v, i.length⟩ := by
  rcases dec_owned ho with ⟨hi', -⟩ | ⟨j, hi', hlt, -⟩ | ⟨b0, bs, -, -, -, -, hi', hd⟩ |
    ⟨b0, b1, bs, -, -, -, -, -, hi', hd⟩ <;> rw [hi] at hi' <;> cases hi'
  · omega
  · exact ⟨_, hd⟩
  · exact ⟨_, hd⟩

/-- Settles O22, from what DEC does for each answer of the identifier and each limit. -/
theorem decFollowsIdent : Obligations.DecFollowsIdent := by
  intro W s t r h hr
  have ho := owned_of_next rfl h
  rcases exec_ident_owned ho with ⟨hi, hexec⟩ | ⟨i, hi, hexec⟩ <;> rw [hexec] at h <;> cases h <;> cases hr
  · exact ⟨fun _ => reportsInvalid_dec ho hi, nofun⟩
  · refine ⟨fun hne => absurd rfl hne, fun n _ hn => ?_⟩
    obtain rfl := Option.some.inj hn
    rw [toNat_len (ident_length_le hi)]
    refine ⟨fun hl => reportsInvalid_of_dec ho (dec_of_limit_lt hi hl), fun hl => ?_⟩
    obtain ⟨v, hd⟩ := dec_of_length_le ho hi hl
    exact ⟨v, exec_dec_of_ok ho hd⟩

/-- Where DEC answers OK, `dec` found the word and the length of the response. -/
theorem dec_of_exec_dec_ok {W : Window} {s t : State} {n : BitVec 4} {v : Word} (h : exec (.dec W) s = .next t)
    (hr : t.unit.resp = some ⟨.ok, none, none, some n, some v⟩) :
    ∃ l, dec s.mem W = .ok ⟨v, l⟩ ∧ n = BitVec.ofNat 4 l := by
  rcases exec_dec_owned (owned_of_next rfl h) with ⟨-, hexec⟩ | ⟨d, hd, hexec⟩ <;>
    rw [hexec] at h <;> cases h <;> cases hr
  exact ⟨d.length, hd, rfl⟩

/-- Memory that reads alike where bytes stand holds them too. -/
theorem holds_congr {m m' : Memory} {a : Nat} {bs : List Byte} (h : m.holds a bs)
    (hr : ∀ i, i < bs.length → m.read (a + i) = m'.read (a + i)) : m'.holds a bs :=
  fun i hi => (hr i hi).symm.trans (h i hi)

/-- 43_decode.md R174: a successful `dec` consumed bytes of the window, ten at most, and finds the same wherever they stand. -/
theorem dec_ok {m : Memory} {W : Window} {d : Decoded} (ho : windowOwned m W = true) (hd : dec m W = .ok d) :
    ∃ bs : List Byte, bs.length = d.length ∧ d.length ≤ 10 ∧ m.holds W.base bs ∧
      ∀ m' : Memory, m'.holds W.base bs → dec m' W = .ok d := by
  rcases dec_owned ho with ⟨-, hd'⟩ | ⟨-, -, -, hd'⟩ | ⟨b0, bs, hc, hn, hl, hm, hi, hd'⟩ |
    ⟨b0, b1, bs, hc, hc1, hn, hl, hm, hi, hd'⟩ <;> rw [hd] at hd' <;> cases hd'
  · exact ⟨b0 :: bs, hn, ident_length_le hi, hm, fun _ => dec_fixed_ok hc hn hl⟩
  · exact ⟨b0 :: b1 :: bs, by simp only [List.length_cons]; omega, ident_length_le hi, hm,
      fun _ => dec_neg_ok hc hc1 hn hl⟩

/-- Settles O30: the bytes the first DEC consumed stand in the second state too, so `dec` finds the same there. -/
theorem decDependsOnItsVarintOnly : Obligations.DecDependsOnItsVarintOnly := by
  intro W s s' t t' n v h hr h' hread
  obtain ⟨l, hd, rfl⟩ := dec_of_exec_dec_ok h hr
  obtain ⟨bs, hn, hle, hm, hdec⟩ := dec_ok (owned_of_next rfl h) hd
  rw [toNat_len hle, ← hn] at hread
  have hs := conclude_of_exec_dec h
  rw [hd, ← hdec s'.mem (holds_congr hm hread)] at hs
  exact conclude_unit_eq (conclude_of_exec_dec h') hs

/-- Settles O31, from all an instruction can do. -/
theorem onlyEncWrites : Obligations.OnlyEncWrites := by
  intro i s t hi h
  obtain ⟨-, hothers, hmoves, hmem, -, -⟩ := exec_next h
  exact ⟨hmem hi, hothers, hmoves⟩

end Sys2Proof.Machine
end

section
/-! SUPPORT. The values DEC answers: the magnitude of a positive varint, and the negations of NEG_2 and NEG_R. -/

namespace Sys2Proof.Machine

/-- A big-endian number lies below the power of 256 of its length. -/
theorem beNat_lt (bs : List Byte) : beNat bs < 256 ^ bs.length := by
  induction bs using List.reverseRecOn with
  | nil => decide
  | append_singleton bs b ih =>
    have hb := b.isLt
    simp only [beNat, List.foldl_append, List.foldl_cons, List.foldl_nil, List.length_append, List.length_singleton,
      pow_succ] at ih ⊢
    omega

/-- 30_encoding.md R71, R81: a fixed-width row's magnitude is its low bits of byte 0, then the following bytes. -/
theorem magNat_of_row {row : LeadRow} {n : Nat} {b0 : Byte} {bs : List Byte} (hrow : row ∈ leadTable)
    (hn : row.fixlen = some n) (hlen : bs.length + 1 = n) :
    magNat row.tag b0 bs = b0.toNat % 2 ^ row.payload * 256 ^ bs.length + beNat bs := by
  have hk : bs.length = n - 1 := by omega
  have hnil : bs.length = 0 → beNat bs = 0 := fun h => by rw [List.length_eq_zero_iff.1 h]; rfl
  simp only [leadTable, List.mem_cons, List.not_mem_nil, or_false] at hrow
  rcases hrow with rfl | rfl | rfl | rfl | rfl | rfl | rfl | rfl <;> cases hn
  all_goals simp [magNat, hk, hnil, Nat.mod_one]

/-- 30_encoding.md R82: a positive row's low bits of byte 0 and its following bytes make a magnitude of the row's tag. -/
theorem magNat_lt_of_row {row : LeadRow} {n : Nat} {b0 : Byte} {bs : List Byte} (hrow : row ∈ leadTable)
    (hn : row.fixlen = some n) (hlen : bs.length + 1 = n) (h2 : row.tag ≠ .neg2) :
    magNat row.tag b0 bs < magBound row.tag := by
  obtain ⟨-, -, -, hbound⟩ := row_of_fixlen hrow hn
  have hlow : b0.toNat % 2 ^ row.payload < 2 ^ row.payload := Nat.mod_lt _ (Nat.two_pow_pos _)
  rw [magNat_of_row hrow hn hlen, ← hbound h2, ← hlen, Nat.add_sub_cancel]
  calc b0.toNat % 2 ^ row.payload * 256 ^ bs.length + beNat bs
      < b0.toNat % 2 ^ row.payload * 256 ^ bs.length + 256 ^ bs.length := Nat.add_lt_add_left (beNat_lt bs) _
    _ = (b0.toNat % 2 ^ row.payload + 1) * 256 ^ bs.length := (Nat.succ_mul _ _).symm
    _ ≤ 2 ^ row.payload * 256 ^ bs.length := Nat.mul_le_mul_right _ hlow

theorem magBound_le (t : Tag) : magBound t ≤ 2 ^ 64 := by cases t <;> decide

/-- Settles O23: the row's varint stands in the window, and its magnitude fits a word. -/
theorem decAssemblesBigEndian : Obligations.DecAssemblesBigEndian := by
  intro row hrow h2 n hn W s b0 bs ho hl hmatch hlen hm
  obtain ⟨hR, -, hfix, -⟩ := row_of_fixlen hrow hn
  have hc := (LeadRow.matches_iff_classB hrow b0).1 hmatch
  have hd := dec_fixed_ok (hc ▸ hR) (by rw [hc, hlen, hfix]) (by rwa [hc, ← hfix]) hm
  rw [hc, ← hfix, decFixedOfBytes, if_neg h2] at hd
  refine ⟨_, exec_dec_of_ok ho hd, ?_⟩
  have hlt := (magNat_lt_of_row (b0 := b0) hrow hn hlen h2).trans_le (magBound_le row.tag)
  rw [u64, BitVec.toNat_ofNat, Nat.mod_eq_of_lt hlt, magNat_of_row hrow hn hlen]

/-- 30_encoding.md R86: the NEG_2 bytes, 0xFC to 0xFF, are those classified as NEG_2. -/
theorem neg2_test_iff (b : Byte) : b &&& 0xFC#8 = 0xFC#8 ↔ classB b = .neg2 := by
  revert b; decide

/-- Settles O24: the byte is the whole NEG_2 varint, and the negation of a magnitude up to 3 is its negative. -/
theorem decOfNeg2IsMinusItsLowBits : Obligations.DecOfNeg2IsMinusItsLowBits := by
  intro W s b0 ho hl h0 hb0
  have hc := (neg2_test_iff b0).1 hb0
  have hm : s.mem.holds W.base [b0] := fun i hi => by
    obtain rfl : i = 0 := by simpa using hi
    exact h0
  have hd := dec_fixed_ok (by simp [hc]) (by rw [hc]; rfl) (by rwa [hc]) hm
  rw [hc, decFixedOfBytes, if_pos rfl] at hd
  refine ⟨_, exec_dec_of_ok ho hd, ?_⟩
  have hmag : u64 (BitVec.ofNat 64 (magNat .neg2 b0 [])) = b0.toNat % 4 := by
    simp only [u64, magNat, BitVec.toNat_ofNat]
    omega
  rw [s64_neg64_of_le (by omega), hmag]

/-- 43_decode.md R165: under a NEG_R marker, `dec` negates what it finds one byte later and consumes one byte more. -/
theorem dec_of_nested {m : Memory} {W : Window} {b0 b1 : Byte} (hl : 2 ≤ W.limit) (h0 : m.read W.base = some b0)
    (hc : classB b0 = .negR) (h1 : m.read (W.base + 1) = some b1) (hc1 : classB b1 ≠ .negR) :
    dec m W = (dec m (W.sub 1)).map fun d => ⟨neg64 d.value, 1 + d.length⟩ := by
  have hnested := ident_of_fixed (W := W.sub 1) (by rw [sub_limit]; omega) h1 hc1
  simp only [dec, ident_of_nested hl h0 hc h1 hc1, hnested, if_neg hc1, sub_limit, if_true]
  by_cases hlt : W.limit < 1 + fixlen (classB b1)
  · rw [if_pos hlt, if_pos (by omega)]
    rfl
  · rw [if_neg hlt, if_neg (by omega)]
    cases decFixed m (classB b1) (W.sub 1) <;> rfl

/-- Settles O25: `dec` found a word one byte later, and negates it under the marker. -/
theorem decNegatesTheNestedVarint : Obligations.DecNegatesTheNestedVarint := by
  intro W s b0 b1 n v ho hl h0 hm0 h1 hm1 hexec
  obtain ⟨l, hd, rfl⟩ := dec_of_exec_dec_ok hexec rfl
  have hneg := dec_of_nested hl h0 ((isMarker_iff b0).1 hm0) h1 (mt (isMarker_iff b1).2 hm1)
  rw [hd] at hneg
  rw [exec_dec_of_ok ho hneg, Response.decoded, BitVec.ofNat_add]
  rfl

end Sys2Proof.Machine
end

section
/-! SUPPORT. The encoder: an ENC that fits places the canonical varint of the value, one that does not leaves at most the
marker, and the response is a function of the value and the limit. -/

namespace Sys2Proof.Machine

/-- 41_length.md R131: the canonical varint of a value has the encoded length of bytes. -/
theorem length_wireBytes_canonical (val : Word) : (wireBytes (canonical val)).length = lenV val := by
  rw [← encBytes_canonical, length_encBytes]

/-- 44_encode.md R196: an ENC that fits places the canonical varint of the value at the base of its window. -/
theorem exec_enc_places_canonical {W : Window} {val : Word} {s : State} (ho : windowOwned s.mem W = true)
    (hl : lenV val ≤ W.limit) :
    exec (.enc W val) s = .next (State.respond
      { s with mem := placeBytes s.mem W.base (wireBytes (canonical val)) } (Response.measured (lenV val))) := by
  rw [exec_enc_fits ho hl, encBytes_canonical]

/-- Settles O32, from the bytes a fitting ENC places: they hold where they were placed, and placing changes no other. -/
theorem encWritesTheCanonicalVarint : Obligations.EncWritesTheCanonicalVarint := by
  intro W val s ho hl
  have hlen := length_wireBytes_canonical val
  exact ⟨hlen, _, exec_enc_places_canonical ho hl, placeBytes_holds _ _ _, hlen ▸ placeBytes_sameOutside _ _ _⟩

/-- Settles O33: the limit is below the encoded length or not, and ENC answers one status in each case. -/
theorem encFailsExactlyWhenTheLimitIsTooSmall : Obligations.EncFailsExactlyWhenTheLimitIsTooSmall := by
  intro W val s ho
  rcases Nat.lt_or_ge W.limit (lenV val) with hl | hl
  · exact ⟨_, _, exec_enc_small ho hl, rfl, iff_of_true rfl hl, iff_of_false nofun (Nat.not_le.2 hl)⟩
  · exact ⟨_, _, exec_enc_fits ho hl, rfl, iff_of_false nofun (Nat.not_lt.2 hl), iff_of_true rfl hl⟩

section

variable {fw : EncFailWrite} {m : Memory} {W : Window} {val : Word}

/-- 44_encode.md R198: an `enc` that does not fit leaves the buffer of a failed ENC, and has written no varint. -/
theorem enc_eq_failedMem (ho : windowOwned m W = true) (hl : W.limit < lenV val) :
    enc fw m W val = .ok ⟨failedMem fw m W val, none⟩ :=
  enc_too_small ho hl

theorem failedMem_none : failedMem .none m W val = m := if_neg nofun

/-- No marker is written for a value of a fixed-width tag, nor below limit 2. -/
theorem failedMem_of_not (h : ¬(classV val = .negR ∧ 2 ≤ W.limit)) : failedMem fw m W val = m :=
  if_neg fun ⟨hR, h2, _⟩ => h ⟨hR, h2⟩

theorem failedMem_marker (hR : classV val = .negR) (h2 : 2 ≤ W.limit) :
    failedMem .marker m W val = m.write W.base 0xF8 :=
  if_pos ⟨hR, h2, rfl⟩

/-- A write changes the one byte at its address. -/
theorem write_sameOutside (m : Memory) (a : Nat) (b : Byte) : m.sameOutside (m.write a b) a 1 :=
  fun _ hx => read_write_ne (by omega)

/-- 44_encode.md R198: all a failed ENC can do to the buffer. -/
theorem failedMem_cases (fw : EncFailWrite) (m : Memory) (W : Window) (val : Word) :
    failedMem fw m W val = m ∨
      classV val = .negR ∧ 2 ≤ W.limit ∧ failedMem fw m W val = m.write W.base 0xF8 := by
  by_cases h : classV val = .negR ∧ 2 ≤ W.limit
  · obtain ⟨hR, h2⟩ := h
    cases fw with
    | none => exact .inl failedMem_none
    | marker => exact .inr ⟨hR, h2, failedMem_marker hR h2⟩
  · exact .inl (failedMem_of_not h)

end

/-- Settles O34, from the buffer a failed ENC leaves: of the machine's setting its two cases, and each setting by itself. -/
theorem aFailingEncLeavesAtMostTheMarker : Obligations.AFailingEncLeavesAtMostTheMarker := by
  intro W val s ho hl
  refine ⟨⟨_, exec_enc_small ho hl, ?_⟩, ?_, fun h => ?_, fun hR h2 => ?_⟩
  · rcases failedMem_cases Config.encFailWrite s.mem W val with h | ⟨hR, h2, h⟩ <;> rw [h]
    · exact ⟨fun _ _ => rfl, .inl rfl⟩
    · exact ⟨write_sameOutside _ _ _, .inr ⟨hR, h2, read_write_same _ _ _⟩⟩
  · rw [enc_eq_failedMem ho hl, failedMem_none]
  · rw [enc_eq_failedMem ho hl, failedMem_of_not h]
  · rw [enc_eq_failedMem ho hl, failedMem_marker hR h2]
    exact ⟨_, rfl, read_write_same _ _ _, write_sameOutside _ _ _⟩

/-- 44_encode.md R197, R203: the response of an ENC, a function of the limit and the value. -/
def encResponse (limit : Nat) (val : Word) : Response :=
  if limit < lenV val then Response.failure .insufficientSpace else Response.measured (lenV val)

theorem exec_enc_unit {W : Window} {val : Word} {s t : State} (h : exec (.enc W val) s = .next t) :
    t.unit = ⟨none, some (encResponse W.limit val)⟩ := by
  have ho := owned_of_next rfl h
  rcases Nat.lt_or_ge W.limit (lenV val) with hl | hl
  · rw [exec_enc_small ho hl] at h
    cases h
    rw [encResponse, if_pos hl, raise_unit]
  · rw [exec_enc_fits ho hl] at h
    cases h
    rw [encResponse, if_neg (Nat.not_lt.2 hl), respond_unit]

/-- Settles O36: both windows hold the canonical varint of the value after it, and the response is that of the limit. -/
theorem encNeverReadsTheWindow : Obligations.EncNeverReadsTheWindow := by
  intro W W' val s s' t t' h h'
  refine ⟨fun hlim => by rw [exec_enc_unit h, exec_enc_unit h', hlim], fun hl hl' i hi => ?_⟩
  rw [← length_wireBytes_canonical val] at hi
  rw [exec_enc_holds_canonical h hl i hi, exec_enc_holds_canonical h' hl' i hi]

/-- 44_encode.md R200: after an ENC that fits, IDENT answers the class of the value, that of its magnitude for a NEG_R
value, and the encoded length. -/
theorem exec_ident_after_enc {W : Window} {val : Word} {s t : State} (h : exec (.enc W val) s = .next t)
    (hl : lenV val ≤ W.limit) :
    exec (.ident W) t =
      .next (t.respond (Response.identified (classV val) (posclass (neg64 val)) (lenV val))) := by
  obtain ⟨-, -, -, -, -, hkeeps⟩ := exec_next h
  have ho : windowOwned t.mem W = true := windowOwned_mono hkeeps (owned_of_next rfl h)
  have hlen := lenV_bounds val
  obtain ⟨⟨b0, h0, hc0⟩, hnested⟩ := classifiersAgreeOnWhatEncWrites W val s t h hl
  by_cases hR : classV val = .negR
  · obtain ⟨b1, h1, hc1⟩ := hnested hR
    have hbound := fixlen_posclass_bounds (neg64 val)
    rw [lenV_of_negR hR] at hl ⊢
    rw [exec_ident_of_ok ho (ident_of_nested (by omega) h0 (hc0.trans hR) h1 (hc1 ▸ posclass_ne_negR _)), hc1, hR]
  · rw [exec_ident_of_ok ho (ident_of_fixed (by omega) h0 (hc0 ▸ hR)), hc0, lenV_of_ne_negR hR]
    simp only [Response.identified, if_neg hR]

/-- Settles O38: the three commands answer the encoded length of the value. -/
theorem lengthsAgree : Obligations.LengthsAgree := by
  intro W val s ho hl
  have henc := exec_enc_fits ho hl
  exact ⟨_, _, henc, rfl, exec_len val _, exec_ident_after_enc henc hl⟩

/-- An ENC with room for the bytes of the canonical varint of its value writes them and answers their number. -/
theorem exec_enc_of_wireBytes {W : Window} {val : Word} {bs : List Byte} {s : State}
    (hbs : wireBytes (canonical val) = bs) (ho : windowOwned s.mem W = true) (hl : bs.length ≤ W.limit) :
    ∃ t, exec (.enc W val) s = .next t ∧ t.mem.holds W.base bs ∧
      t.unit.resp = some (Response.measured bs.length) := by
  subst hbs
  rw [length_wireBytes_canonical] at hl ⊢
  exact ⟨_, exec_enc_places_canonical ho hl, placeBytes_holds _ _ _, rfl⟩

/-- 40_classify.md R119: the first byte of the canonical varint of a value is of the value's class. -/
theorem class_head_wireBytes_canonical (val : Word) :
    ∃ b0, (wireBytes (canonical val)).head? = some b0 ∧ classB b0 = classV val := by
  rcases canonical_cases val with ⟨hR, hc⟩ | ⟨-, v, hc, hv⟩
  · exact ⟨markerByte 0, by rw [hc]; rfl, by rw [hR]; decide⟩
  · obtain ⟨b0, bs, he, hb⟩ := class_encode v
    exact ⟨b0, by rw [hc, wireBytes_ofFixed, he]; rfl, hb.trans hv⟩

/-- Settles O44: the bytes of the table are those of the canonical varints of its values. -/
theorem encAtTheTagTransitions : Obligations.EncAtTheTagTransitions := by
  intro p hp
  have hbs : wireBytes (canonical p.1) = p.2 := by revert p; decide
  intro W s ho hl
  obtain ⟨t, ht, hm, hr⟩ := exec_enc_of_wireBytes hbs ho hl
  exact ⟨t, ht, hm, hr, hbs ▸ class_head_wireBytes_canonical p.1⟩

/-- Settles O35: the ten bytes are those of the canonical varint of the most negative value. -/
theorem encOfTheMostNegativeValue : Obligations.EncOfTheMostNegativeValue :=
  fun _ _ ho hl => exec_enc_of_wireBytes (by decide) ho hl

end Sys2Proof.Machine
end

section
/-! SUPPORT. The units beside this one: the steps that turn to another unit, and what a step leaves of the others. -/

namespace Sys2Proof.Machine

section

variable {s t : State} {k : Nat}

theorem step_switch {ms : List Move} (hm : s.moves = .switch k :: ms) :
    step s = switchTo k { s with moves := ms } :=
  step_move hm

theorem step_nil_idle_of_busy (hc : s.unit.cmd = none) (hm : s.moves = []) (hk : firstBusy s.others = some k) :
    step s = switchTo k s := by
  simp only [step, act, hm, runOn, hc, hk]

theorem step_nil_idle_of_none (hc : s.unit.cmd = none) (hm : s.moves = []) (hk : firstBusy s.others = none) :
    step s = .next s := by
  simp only [step, act, hm, runOn, hc, hk]

theorem switchTo_of_unit {u : UnitPorts} (hu : s.others[k]? = some u) :
    switchTo k s = .next { s with unit := u, others := s.others.set k s.unit } := by
  simp only [switchTo, hu]

theorem switchTo_of_no_unit (hk : s.others.length ≤ k) : switchTo k s = .refused .noSuchUnit := by
  simp only [switchTo, List.getElem?_eq_none hk]

/-- Turning to another unit leaves memory alone and every unit's ports in place, in another order. -/
theorem switchTo_keeps_mem_and_units (h : switchTo k s = .next t) : t.mem = s.mem ∧ t.units.Perm s.units := by
  obtain ⟨u, hu, rfl⟩ := switchTo_next h
  exact ⟨rfl, swap_perm hu⟩

/-- A step leaves the others alone, or two units change places at one of the two occasions of log 1 and log 16. -/
theorem step_others (h : step s = .next t) :
    t.others = s.others ∨
      ∃ k, t.others = s.others.set k s.unit ∧ (s.moves = [] ∧ s.unit.cmd = none ∨ ∃ ms, s.moves = .switch k :: ms) := by
  rcases step_cases h with ⟨c, i, ms, -, -, he⟩ | ⟨c, ms, -, hi⟩ | ⟨ms, rfl⟩ | ⟨k, u, ms, hk, -, rfl⟩ |
    ⟨a, b, ms, -, rfl⟩ | ⟨landed, ms, rfl⟩
  · obtain ⟨-, hothers, -⟩ := exec_next he
    exact .inl hothers
  · obtain ⟨rfl, -⟩ := issue_next hi
    exact .inl rfl
  · exact .inl rfl
  · exact .inr ⟨k, rfl, hk.imp_right fun hm => ⟨ms, hm⟩⟩
  · exact .inl rfl
  · exact .inl rfl

end

/-- Settles O8: of the others from all a step can do, of the two turning steps from what changing places does. -/
theorem stepLeavesOtherUnitsAlone : Obligations.StepLeavesOtherUnitsAlone := by
  intro s t h
  refine ⟨?_, fun hswitch hidle => ?_, fun hturn => ?_⟩
  · rcases step_others h with hothers | ⟨k, hothers, -⟩
    · rw [hothers]
    · rw [hothers, List.length_set]
  · rcases step_others h with hothers | ⟨k, -, hnil | ⟨ms, hm⟩⟩
    · exact hothers
    · exact absurd hnil hidle
    · exact absurd hm (hswitch k ms)
  · rcases hturn with ⟨k, ms, hm⟩ | ⟨hm, hc⟩
    · rw [step_switch hm] at h
      exact switchTo_keeps_mem_and_units (s := { s with moves := ms }) h
    · cases hk : firstBusy s.others with
      | some k =>
        rw [step_nil_idle_of_busy hc hm hk] at h
        exact switchTo_keeps_mem_and_units h
      | none =>
        rw [step_nil_idle_of_none hc hm hk] at h
        cases h
        exact ⟨rfl, .refl _⟩

/-- Settles O56, from the two equations of changing places. -/
theorem aSwitchTurnsToTheNamedUnit : Obligations.ASwitchTurnsToTheNamedUnit := by
  intro s k ms hm
  rw [step_switch hm]
  exact ⟨fun u hu => switchTo_of_unit (s := { s with moves := ms }) hu, fun hk => switchTo_of_no_unit hk⟩

end Sys2Proof.Machine
end

section
/-! SUPPORT. What an instruction answers at its ports, and when the answers of IDENT and DEC are Invalid. -/

namespace Sys2Proof.Machine

/-- An IDENT that answers reports Invalid, or what `ident` found. -/
theorem exec_ident_unit {W : Window} {s t : State} (h : exec (.ident W) s = .next t) :
    (ident s.mem W = .error (.raise .invalid) ∧ t.unit = ⟨none, some (Response.failure .invalid)⟩) ∨
    ∃ i, ident s.mem W = .ok i ∧ t.unit = ⟨none, some (Response.identified i.tag i.rtag i.length)⟩ := by
  rcases exec_ident_owned (owned_of_next rfl h) with ⟨hi, hexec⟩ | ⟨i, hi, hexec⟩ <;>
    rw [hexec] at h <;> cases h
  · exact .inl ⟨hi, rfl⟩
  · exact .inr ⟨i, hi, rfl⟩

/-- A DEC that answers reports Invalid, or what `dec` found. -/
theorem exec_dec_unit {W : Window} {s t : State} (h : exec (.dec W) s = .next t) :
    (dec s.mem W = .error (.raise .invalid) ∧ t.unit = ⟨none, some (Response.failure .invalid)⟩) ∨
    ∃ d, dec s.mem W = .ok d ∧ t.unit = ⟨none, some (Response.decoded d.value d.length)⟩ := by
  rcases exec_dec_owned (owned_of_next rfl h) with ⟨hd, hexec⟩ | ⟨d, hd, hexec⟩ <;>
    rw [hexec] at h <;> cases h
  · exact .inl ⟨hd, rfl⟩
  · exact .inr ⟨d, hd, rfl⟩

theorem exec_no_window_unit {i : Instr} {s t : State} (hw : windowOf i = none) (h : exec i s = .next t) :
    ∃ r : Response, r.status = .ok ∧ t.unit = ⟨none, some r⟩ := by
  obtain ⟨r, hr, hexec⟩ := exec_no_window hw
  rw [hexec] at h
  cases h
  exact ⟨r, hr, rfl⟩

/-- Settles O20: an Invalid answer is one that `ident` raised, and on an owned window it raises for these causes only. -/
theorem identIsInvalidInNoOtherCase : Obligations.IdentIsInvalidInNoOtherCase := by
  intro W s t h hinv
  simp only [isMarker_iff]
  rcases exec_ident_unit h with ⟨hi, -⟩ | ⟨i, -, hunit⟩
  · rcases ident_owned (owned_of_next rfl h) with ⟨i, hi'⟩ | ⟨-, hcause⟩
    · rw [hi] at hi'
      cases hi'
    · exact hcause
  · rw [hunit] at hinv
    cases hinv

/-- Of two byte sequences that stand at one address the shorter begins the longer. -/
theorem eq_append_of_holds {m : Memory} {a : Nat} {bs cs : List Byte} (hb : m.holds a bs) (hc : m.holds a cs)
    (hl : bs.length ≤ cs.length) : ∃ rest, cs = bs ++ rest := by
  induction bs generalizing a cs with
  | nil => exact ⟨cs, rfl⟩
  | cons b bs ih =>
    match cs, hc, hl with
    | c :: cs, hc, hl =>
      obtain rfl : b = c := Option.some.inj ((holds_head hb).symm.trans (holds_head hc))
      obtain ⟨rest, rfl⟩ := ih (holds_tail hb) (holds_tail hc) (Nat.le_of_succ_le_succ hl)
      exact ⟨rest, rfl⟩

/-- 30_encoding.md R84: the wire decoder reads a fixed-width varint where as many bytes stand as its format has. -/
theorem decodeVarint_of_fixed {b0 : Byte} {r : List Byte} (hc : classB b0 ≠ .negR)
    (hl : fixlen (classB b0) ≤ (b0 :: r).length) : ∃ p, decodeVarint (b0 :: r) = .ok p := by
  obtain ⟨v, r', hv⟩ := decodeFixed_long hc (classB_ne_invalid b0) hl
  exact ⟨(.ofFixed v, r'), by simp only [decodeVarint, if_neg hc, hv]⟩

/-- 30_encoding.md R84: under a marker the nested varint needs the bytes of its own format. -/
theorem decodeVarint_of_nested {b0 b1 : Byte} {r : List Byte} (hc : classB b0 = .negR) (hc1 : classB b1 ≠ .negR)
    (hl : fixlen (classB b1) ≤ (b1 :: r).length) : ∃ p, decodeVarint (b0 :: b1 :: r) = .ok p := by
  obtain ⟨v, r', hv⟩ := decodeFixed_long hc1 (classB_ne_invalid b1) hl
  exact ⟨(.negR (.ofNat 2 b0.toNat) v, r'), by simp only [decodeVarint, if_pos hc, hv]⟩

/-- Where `dec` finds a varint, the wire decoder reads one in the first ten bytes of the window. -/
theorem decodeVarint_of_dec_ok {m : Memory} {W : Window} {d : Decoded} {bs : List Byte}
    (ho : windowOwned m W = true) (hn : bs.length = min W.limit 10) (hm : m.holds W.base bs)
    (hd : dec m W = .ok d) : ∃ p, decodeVarint bs = .ok p := by
  rcases dec_owned ho with ⟨-, hd'⟩ | ⟨-, -, -, hd'⟩ | ⟨b0, cs, hc, hlen, hl, hm', -, -⟩ |
    ⟨b0, b1, cs, hc, hc1, hlen, hl, hm', -, -⟩
  · rw [hd] at hd'; cases hd'
  · rw [hd] at hd'; cases hd'
  · have hb := fixlen_bounds hc (classB_ne_invalid b0)
    obtain ⟨rest, rfl⟩ := eq_append_of_holds hm' hm (by simp only [List.length_cons]; omega)
    exact decodeVarint_of_fixed (r := cs ++ rest) hc (by simp only [List.length_cons, List.length_append]; omega)
  · have hb := fixlen_bounds hc1 (classB_ne_invalid b1)
    obtain ⟨rest, rfl⟩ := eq_append_of_holds hm' hm (by simp only [List.length_cons]; omega)
    exact decodeVarint_of_nested (r := cs ++ rest) hc hc1 (by simp only [List.length_cons, List.length_append]; omega)

/-- Settles O27: on an owned window `dec` raises Invalid or finds a varint, which the wire decoder would have read too. -/
theorem decIsInvalidWhereNoVarintStands : Obligations.DecIsInvalidWhereNoVarintStands := by
  intro W s bs e ho hn hm he
  rcases exec_dec_owned ho with ⟨hd, -⟩ | ⟨d, hd, -⟩
  · exact reportsInvalid_of_dec ho hd
  · obtain ⟨p, hp⟩ := decodeVarint_of_dec_ok ho hn hm hd
    rw [he] at hp
    cases hp

end Sys2Proof.Machine
end

section
/-! SUPPORT. The errors of the operations, and their status against their length. -/

namespace Sys2Proof.Machine

/-- Settles O49, from what each operation can answer. -/
theorem errorsByOperation : Obligations.ErrorsByOperation := by
  intro s t r hr
  have hok : ∀ i, windowOf i = none → exec i s = .next t → r.status = .ok := by
    intro i hw h
    obtain ⟨q, hq, hunit⟩ := exec_no_window_unit hw h
    rw [hunit] at hr
    cases hr
    exact hq
  refine ⟨fun val => hok _ rfl, fun b => hok _ rfl, fun val => hok _ rfl, fun W h => ?_, fun W h => ?_,
    fun W val h => ?_⟩
  · rcases exec_ident_unit h with ⟨-, hunit⟩ | ⟨i, -, hunit⟩ <;> rw [hunit] at hr <;> cases hr <;> nofun
  · rcases exec_dec_unit h with ⟨-, hunit⟩ | ⟨d, -, hunit⟩ <;> rw [hunit] at hr <;> cases hr <;> nofun
  · rw [exec_enc_unit h] at hr
    cases hr
    unfold encResponse
    split <;> nofun

/-- 60_exceptions.md R224, of one response. -/
def Response.OkIffNotEmpty (r : Response) : Prop := ∃ n, r.length = some n ∧ (r.status = .ok ↔ 1 ≤ n.toNat)

theorem okIffNotEmpty_failure (e : Raised) : (Response.failure e).OkIffNotEmpty := by
  cases e <;> exact ⟨0, rfl, by decide⟩

theorem okIffNotEmpty_of_ok {r : Response} {n : Nat} (hs : r.status = .ok) (hn : r.length = some (BitVec.ofNat 4 n))
    (h1 : 1 ≤ n) (h10 : n ≤ 10) : r.OkIffNotEmpty :=
  ⟨_, hn, iff_of_true hs (by rwa [toNat_len h10])⟩

theorem one_le_ident_length {m : Memory} {W : Window} {i : Identified} (h : ident m W = .ok i) : 1 ≤ i.length := by
  obtain ⟨b0, -, -, ⟨hc, rfl⟩ | ⟨-, -, b1, -, -, rfl⟩⟩ := ident_ok h
  · obtain ⟨hpos, -⟩ := fixlen_bounds hc (classB_ne_invalid b0)
    exact hpos
  · exact Nat.le_add_right 1 _

/-- 43_decode.md R166: a successful `dec` consumes the length `ident` answers. -/
theorem ident_of_dec_ok {m : Memory} {W : Window} {d : Decoded} (ho : windowOwned m W = true) (hd : dec m W = .ok d) :
    ∃ i, ident m W = .ok i ∧ d.length = i.length := by
  rcases dec_owned ho with ⟨-, hd'⟩ | ⟨-, -, -, hd'⟩ | ⟨_, _, -, -, -, -, hi, hd'⟩ |
    ⟨_, _, _, -, -, -, -, -, hi, hd'⟩ <;> rw [hd] at hd' <;> cases hd'
  · exact ⟨_, hi, rfl⟩
  · exact ⟨_, hi, rfl⟩

theorem okIffNotEmpty_encResponse (limit : Nat) (val : Word) : (encResponse limit val).OkIffNotEmpty := by
  obtain ⟨h1, h10⟩ := lenV_bounds val
  unfold encResponse
  split
  · exact okIffNotEmpty_failure _
  · exact okIffNotEmpty_of_ok rfl rfl h1 h10

/-- An instruction with a window answers a length, and OK exactly with a length of 1 or more. -/
theorem exec_window_okIffNotEmpty {i : Instr} {W : Window} {s t : State} (hw : windowOf i = some W)
    (h : exec i s = .next t) : ∃ r : Response, t.unit = ⟨none, some r⟩ ∧ r.OkIffNotEmpty := by
  cases i <;> simp only [windowOf, reduceCtorEq] at hw
  case ident V =>
    rcases exec_ident_unit h with ⟨-, hunit⟩ | ⟨i, hi, hunit⟩
    · exact ⟨_, hunit, okIffNotEmpty_failure _⟩
    · exact ⟨_, hunit, okIffNotEmpty_of_ok rfl rfl (one_le_ident_length hi) (ident_length_le hi)⟩
  case dec V =>
    rcases exec_dec_unit h with ⟨-, hunit⟩ | ⟨d, hd, hunit⟩
    · exact ⟨_, hunit, okIffNotEmpty_failure _⟩
    · obtain ⟨i, hi, hlen⟩ := ident_of_dec_ok (owned_of_next rfl h) hd
      exact ⟨_, hunit, okIffNotEmpty_of_ok rfl rfl (hlen ▸ one_le_ident_length hi) (hlen ▸ ident_length_le hi)⟩
  case enc V val => exact ⟨_, exec_enc_unit h, okIffNotEmpty_encResponse _ _⟩

/-- Settles O50, from the response of each of the three. -/
theorem statusIsOkExactlyWhenLengthIsNotZero : Obligations.StatusIsOkExactlyWhenLengthIsNotZero := by
  intro i W s t hw h
  obtain ⟨r, hunit, n, hn, hok⟩ := exec_window_okIffNotEmpty hw h
  exact ⟨r, n, hunit, hn, hok⟩

end Sys2Proof.Machine
end

section
/-! SUPPORT. The refusal of a window that is not the host's. -/

namespace Sys2Proof.Machine

/-- 60_exceptions.md R235: no instruction answers on a window that is not the host's. -/
theorem exec_of_not_owned {i : Instr} {W : Window} {s : State} (hw : windowOf i = some W)
    (ho : windowOwned s.mem W = false) : exec i s = .refused .windowNotOwned := by
  rcases exec_cases i s with ⟨t, ht⟩ | ⟨href, -⟩
  · rw [owned_of_next hw ht] at ho
    cases ho
  · exact href

/-- 60_exceptions.md R235: the launch itself is refused. -/
theorem launchRefusal_of_not_owned {c : Command} {W : Window} {s : State} (hW : c.window? = some W)
    (ho : windowOwned s.mem W = false) : launchRefusal c s = some .windowNotOwned := by
  obtain ⟨i, hi⟩ := decode_of_window hW
  simp only [launchRefusal, hi, hW, ho, if_true]

/-- Settles O52, of the instructions and of the launch. -/
theorem aWindowNotOwnedIsRefused : Obligations.AWindowNotOwnedIsRefused := by
  intro W val s ho
  refine ⟨exec_of_not_owned rfl ho, exec_of_not_owned rfl ho, exec_of_not_owned rfl ho, fun c ms hW hu hm => ?_⟩
  rw [step_issue_idle hu hm, issue, launchRefusal_of_not_owned (s := { s with moves := ms }) hW ho]

end Sys2Proof.Machine
end

section
/-! SUPPORT. Reset: the state the machine starts from, and what the reset of a unit leaves of the command in progress. -/

namespace Sys2Proof.Machine

/-- Settles O1: nothing is in progress that could be illegal, and with no move left and no busy unit the machine waits. -/
theorem resetIsReadyAndMeetsTheInvariants : Obligations.ResetIsReadyAndMeetsTheInvariants :=
  ⟨reset_unit, reset_mem_wf, ⟨nofun, .nil⟩, step_nil_idle_of_none (s := State.reset) rfl reset_moves rfl⟩

section

variable {s : State} {c : Command} {landed : BitVec 10} {m : Memory}

theorem step_reset {ms : List Move} (hm : s.moves = .reset landed :: ms) :
    step s = .next { s with mem := resetMem landed s, unit := UnitPorts.idle, moves := ms } :=
  step_move hm

/-- With nothing in progress a reset finds nothing to abandon. -/
theorem resetMem_of_idle (hc : s.unit.cmd = none) : resetMem landed s = s.mem := by
  simp only [resetMem, hc]

theorem resetMem_of_busy (hc : s.unit.cmd = some c) : resetMem landed s = abandoned landed c s.mem := by
  simp only [resetMem, hc]

/-- 30_encoding.md R91: operation 5 selects ENC. -/
theorem decodeCommand_enc (hop : c.op = 5) : decodeCommand c = .ok (.enc ⟨c.win, c.lim.toNat⟩ c.val) := by
  simp [decodeCommand, hop]

/-- 70_reset_and_hazards.md R261: of the commands only an ENC can have changed the buffer. -/
theorem abandoned_of_not_enc (hop : c.op ≠ 5) : abandoned landed c m = m := by
  unfold abandoned
  split
  next W val hi =>
    obtain ⟨-, henc⟩ := windowOf_decode hi
    exact absurd (henc.1 ⟨W, val, rfl⟩) hop
  next => rfl

/-- An ENC that is abandoned leaves the bytes that had landed of those the completed `enc` leaves. -/
theorem abandoned_enc {r : EncResult} (hop : c.op = 5)
    (hr : enc Config.encFailWrite m ⟨c.win, c.lim.toNat⟩ c.val = .ok r) :
    abandoned landed c m = landBytes landed ⟨c.win, c.lim.toNat⟩ r.mem m (min c.lim.toNat 10) := by
  simp only [abandoned, decodeCommand_enc hop, hr, Config.maxLen]

/-- An ENC on a window the host owns answers with the buffer that `enc` leaves. -/
theorem exec_enc_answers {W : Window} {val : Word} (ho : windowOwned s.mem W = true) :
    ∃ u n, exec (.enc W val) s = .next u ∧ enc Config.encFailWrite s.mem W val = .ok ⟨u.mem, n⟩ := by
  rcases Nat.lt_or_ge W.limit (lenV val) with hl | hl
  · exact ⟨_, _, exec_enc_small ho hl, enc_eq_failedMem ho hl⟩
  · exact ⟨_, _, exec_enc_fits ho hl, enc_fits ho hl⟩

/-- 70_reset_and_hazards.md R261: each byte of the part an ENC may write is its old value or the one the completed ENC
gives it, and no other byte changes. -/
theorem read_abandoned_enc {u : State} (hop : c.op = 5) (ho : windowOwned s.mem ⟨c.win, c.lim.toNat⟩ = true)
    (hu : exec (.enc ⟨c.win, c.lim.toNat⟩ c.val) s = .next u) (a : Nat) :
    (abandoned landed c s.mem).read a =
      if c.win ≤ a ∧ a < c.win + min c.lim.toNat 10 ∧ landed.getLsbD (a - c.win) then u.mem.read a
      else s.mem.read a := by
  obtain ⟨u', n, hu', hr⟩ := exec_enc_answers (val := c.val) ho
  obtain rfl : u' = u := by simpa [hu'] using hu
  obtain ⟨-, -, -, -, -, hkeeps⟩ := exec_next hu
  rw [abandoned_enc hop hr]
  exact read_landBytes _ _ _ _ _ a fun k hk =>
    hkeeps _ (windowOwned_iff.1 ho k (hk.trans_le (Nat.min_le_left _ _)))

end

/-- Settles O55: the unit is idle after the step, and memory is that of the abandoned command, where there is one. -/
theorem resetAbandonsTheCommandInProgress : Obligations.ResetAbandonsTheCommandInProgress := by
  intro s landed ms hm
  refine ⟨_, step_reset hm, fun hother => ?_, fun c hc hop ho => ?_⟩
  · cases hc : s.unit.cmd with
    | none => exact resetMem_of_idle hc
    | some c => rw [resetMem_of_busy hc, abandoned_of_not_enc (hother c hc)]
  · obtain ⟨u, -, hu, -⟩ := exec_enc_answers (val := c.val) ho
    rw [resetMem_of_busy hc]
    refine ⟨u, hu, fun k hk => ?_, fun x hx => ?_⟩
    · simp [read_abandoned_enc hop ho hu, hk]
    · rw [read_abandoned_enc hop ho hu, if_neg (by omega)]

end Sys2Proof.Machine
end

section
/-! SUPPORT. An idle unit: which of the others the machine turns to. -/

namespace Sys2Proof.Machine

/-- The first busy unit is the one with a command in progress before which there is none. -/
theorem firstBusy_eq_some {us : List UnitPorts} {k : Nat} {u : UnitPorts} (hu : us[k]? = some u) (hbusy : u.cmd ≠ none)
    (hidle : ∀ j v, j < k → us[j]? = some v → v.cmd = none) : firstBusy us = some k := by
  obtain ⟨hk, rfl⟩ := List.getElem?_eq_some_iff.1 hu
  refine List.findIdx?_eq_some_iff_getElem.2 ⟨hk, Option.isSome_iff_ne_none.2 hbusy, fun j hj => ?_⟩
  simp [hidle j _ hj (List.getElem?_eq_getElem (hj.trans hk))]

theorem firstBusy_eq_none {us : List UnitPorts} (hidle : ∀ v ∈ us, v.cmd = none) : firstBusy us = none :=
  List.findIdx?_eq_none_iff.2 fun v hv => by rw [hidle v hv]; rfl

theorem step_finish_idle {s : State} {ms : List Move} (hc : s.unit.cmd = none) (hm : s.moves = .finish :: ms) :
    step s = .next { s with moves := ms } := by
  simp only [step_move hm, takeMove, hc]

/-- Settles O57, from which unit is the first busy one and what turning to it does. -/
theorem anIdleUnitLeavesTheOthersToRunOn : Obligations.AnIdleUnitLeavesTheOthersToRunOn := by
  intro s hc
  refine ⟨fun ms hm => step_finish_idle hc hm, fun k u hm hu hbusy hidle => ?_, fun hm hidle => ?_⟩
  · rw [step_nil_idle_of_busy hc hm (firstBusy_eq_some hu hbusy hidle), switchTo_of_unit hu]
  · exact step_nil_idle_of_none hc hm (firstBusy_eq_none hidle)

end Sys2Proof.Machine
end
